-- ==== Sys2Proof/Word.lean ====
section
/-! DEFINITION. The bit-vector types of the block: the byte that a memory cell or a byte transfer holds, the 4-bit
nibble that the lines carry (00_scope.md R7, R10) and the 16-bit request word (30_encoding.md R64). -/

namespace Sys2Proof

/-- An 8-bit value: a text byte, a raster byte, the value of a byte transfer (00_scope.md R10). -/
abbrev Byte := BitVec 8

/-- A 4-bit value, half of a byte transfer (00_scope.md R10, 40_transfer.md R83). -/
abbrev Nibble := BitVec 4

/-- A request word, presented whole on `req_word` (30_encoding.md R64, 20_memory.md R53). -/
abbrev Word := BitVec 16

end Sys2Proof
end

