-- ==== Sys2Proof/Syntax.lean ====
section
/-! DEFINITION. The requests of the block, one constructor per row of spec/opcode_table.json, and the two-valued mode
that is XFER's operand. -/

namespace Sys2Proof

/-- The two-valued discriminator of 00_scope.md R9: Command drives RS low, Data drives it high. -/
inductive Mode where
  | command
  | data
deriving DecidableEq, Repr

/-- The request set LCDFE-REQ v1 (30_encoding.md R66). -/
inductive Instr where
  /-- INIT: run the initialization byte program again (40_transfer.md R101). -/
  | init
  /-- XFER: one byte transfer of value `v` in mode `m` (40_transfer.md R96). -/
  | xfer (m : Mode) (v : Byte)
  /-- RENDER: lay the text buffer out and transmit every line (41_layout.md R118). -/
  | render
deriving DecidableEq, Repr

end Sys2Proof
end

