-- ==== Sys2Proof/Decode.lean ====
section
/-! DEFINITION. The decoder of request words, total on all 16-bit words (30_encoding.md R70), and the encoder written
from the same table. A word that decodes to ILLEGAL is `none`; the acceptance of such a word raises ILLEGAL_REQ by name
(60_exceptions.md R130; Machine/Ports.lean). -/

namespace Sys2Proof

/-- The mode operand of request bit 8 (30_encoding.md R65): 0 is Command, 1 is Data. -/
def Mode.ofBit (b : Bool) : Mode := if b then .data else .command

/-- The bit that stands for a mode in a request word (30_encoding.md R65). -/
def Mode.toBit : Mode → Bool
  | .command => false
  | .data => true

/-- Decoding, clause by clause as 30_encoding.md R70 writes it; `none` is ILLEGAL (R71). -/
def decode (w : Word) : Option Instr :=
  if w = 0x1000#16 then some .init
  else if w &&& 0xFE00#16 = 0x2000#16 then some (.xfer (Mode.ofBit (w.getLsbD 8)) (w.extractLsb' 0 8))
  else if w = 0x3000#16 then some .render
  else none

/-- The word of a request: INIT 0x1000 (30_encoding.md R67), XFER the fields OP = 0b0010, RSV = 0b000, M, V from bit 15
down (R64, R68), RENDER 0x3000 (R69). -/
def encode : Instr → Word
  | .init => 0x1000#16
  | .xfer m v => 0b0010#4 ++ 0b000#3 ++ BitVec.ofBool m.toBit ++ v
  | .render => 0x3000#16

/-- The request that the decoder reads from the table's word `w`, whose row gives it `nbits` bits: the bits of the
16-bit word above `nbits` are 0. A request is exactly 16 bits (30_encoding.md R72) and is presented whole, so no byte
order is applied (20_memory.md R53); a row of more than 16 bits is no request. -/
def decodeTableWord (nbits w : Nat) : Option Instr :=
  if nbits ≤ 16 then decode (BitVec.ofNat 16 (w % 2 ^ nbits)) else none

end Sys2Proof
end

