-- ==== Sys2Proof/Config.lean ====
section
/-! DEFINITION. What is fixed for one block: the implementation parameters of 00_scope.md R5, those sampled when reset
is released (`Cfg`, 10_state.md R19) and the bounds of the built hardware (`Limits`); and the model's one free value. -/

namespace Sys2Proof

/-- The pin domain `PinId`, an OPEN parameter (00_scope.md R5, D14). DESIGN CHOICE, safe: the natural numbers, into
which any numbering scheme maps; the model only compares pin ids (log entry 1). -/
abbrev PinId := Nat

/-- The OPEN bounds `W_MAX` and `N_MAX` of the built hardware (00_scope.md R5, D13). Plain data carried in the state,
which no step changes, so that a statement about every state holds for every value of them (log entry 2). -/
structure Limits where
  /-- `W_MAX`, the largest column count. -/
  wMax : Nat
  /-- `N_MAX`, the largest number of lines. -/
  nMax : Nat
deriving DecidableEq, Repr

/-- The configuration sampled at the release of reset (00_scope.md R5, 10_state.md R19, 70_reset_and_hazards.md
R155). The numbers are as wide as the host gives them: 00_scope.md R6 is checked by the configuration step. -/
structure Cfg where
  /-- `RS_PIN`. -/
  rsPin : PinId
  /-- `E_PIN`. -/
  ePin : PinId
  /-- `D_PIN[0]`, the least-significant bit of each nibble. -/
  dPin0 : PinId
  /-- `D_PIN[1]`. -/
  dPin1 : PinId
  /-- `D_PIN[2]`. -/
  dPin2 : PinId
  /-- `D_PIN[3]`. -/
  dPin3 : PinId
  /-- `W`, character columns per line. -/
  w : Nat
  /-- `LINE_ADDR[0..N-1]`, top to bottom. An entry above 0xFF is representable, so that R129 can refuse it. -/
  lineAddr : List Nat
  /-- `T_DELAY`, the one delay, in an unstated unit of time: only its multiples are used (10_state.md R16, D3). -/
  tDelay : Nat
  /-- `TEXT_MAX`, the capacity of `TEXTBUF` in bytes (20_memory.md R45). -/
  textMax : Nat
deriving DecidableEq, Repr

/-- `N`, the number of physical lines: the number of entries of `LINE_ADDR` (00_scope.md R5). -/
def Cfg.n (c : Cfg) : Nat := c.lineAddr.length

/-- FREE VALUE: what the `RASTER` byte at an address holds after reset and before the first RENDER writes it, which the
spec leaves unspecified ("any value", S2; 20_memory.md R46). No body: nothing can be proved of it (log entry 8). -/
opaque Config.rasterReset : Nat → Byte

end Sys2Proof
end

