-- ==== Sys2Proof/Machine/State.lean ====
section
/-! DEFINITION. The state of the block as plain data, holding everything the spec gives it, the reasons a step can stop,
and the state right after reset. -/

namespace Sys2Proof.Machine

/-- The six logical output lines (00_scope.md R11). -/
inductive Line where
  | rs
  | e
  | d0
  | d1
  | d2
  | d3
deriving DecidableEq, Repr

/-- The output latches `OUT_RS`, `OUT_E`, `OUT_D[0..3]` (10_state.md R20, R21); true is high. -/
structure Latches where
  rs : Bool
  e : Bool
  d0 : Bool
  d1 : Bool
  d2 : Bool
  d3 : Bool
deriving DecidableEq, Repr

/-- Every latch at its reset value 0 (10_state.md R44). -/
def Latches.zero : Latches := ⟨false, false, false, false, false, false⟩

/-- An event of the trace (10_state.md R13 to R17). -/
inductive Event where
  /-- `Configure(S)`: the pins of the set `S` were marked as digital outputs. The list is `S` in rising order, so that
  equal sets are equal lists (log entry 10). -/
  | configure (pins : List PinId)
  /-- `Set(p, b)`: one call that drives pin `p` to level `b`. -/
  | set (p : PinId) (b : Bool)
  /-- `Wait`: one delay of at least `T_DELAY`. -/
  | wait
  /-- `Reset`: the host asserted reset. -/
  | reset
deriving DecidableEq, Repr

/-- The register `STATE` (10_state.md R23). Its encodings 5, 6 and 7 are never held, so they are no constructor. -/
inductive BlockState where
  | config
  | initializing
  | ready
  | busy
  | fault
deriving DecidableEq, Repr

/-- The register `JOB` (10_state.md R25). -/
inductive Job where
  | none
  | init
  | xfer
  | render
deriving DecidableEq, Repr

/-- The register `NIB`: the high nibble (0) or the low nibble (1) of the byte in flight (10_state.md R27). -/
inductive Half where
  | high
  | low
deriving DecidableEq, Repr

/-- The register `USTEP`: one constructor per row of the table of 40_transfer.md R86, values 0 to 9 in this order. The
values 10 to 15 of its four bits are never held (10_state.md R28). -/
inductive MicroStep where
  /-- 0: `Set(RS, level(m))`. -/
  | setRs
  /-- 1: `Set(D0, n[0])`. -/
  | setD0
  /-- 2: `Set(D1, n[1])`. -/
  | setD1
  /-- 3: `Set(D2, n[2])`. -/
  | setD2
  /-- 4: `Set(D3, n[3])`. -/
  | setD3
  /-- 5: the settle `Wait`. -/
  | settle
  /-- 6: `Set(E, 1)`. -/
  | raiseE
  /-- 7: the strobe-high `Wait`. -/
  | hold
  /-- 8: `Set(E, 0)`. -/
  | lowerE
  /-- 9: the recovery `Wait`. -/
  | recover
deriving DecidableEq, Repr

/-- The sequencer pointer `seq = (BIDX, NIB, USTEP)` (10_state.md R27). `BIDX` is a Nat: it never wraps (R29; log entry
13). -/
structure Seq where
  bidx : Nat
  nib : Half
  ustep : MicroStep
deriving DecidableEq, Repr

/-- `(0, 0, 0)`, the start of a job (10_state.md R27). -/
def Seq.start : Seq := ⟨0, .high, .setRs⟩

/-- The register `ERRCODE` (10_state.md R35, 60_exceptions.md R127). Its values 5 to 7 are never held. -/
inductive ErrCode where
  /-- 0: no fault since reset. -/
  | noFault
  /-- 1, `CFG_REJECT` (60_exceptions.md R128). -/
  | cfgReject
  /-- 2, `CFG_INVALID` (60_exceptions.md R129). -/
  | cfgInvalid
  /-- 3, `ILLEGAL_REQ` (60_exceptions.md R130). -/
  | illegalReq
  /-- 4, `TEXT_RANGE` (60_exceptions.md R131). -/
  | textRange
deriving DecidableEq, Repr

/-- A byte memory: the bytes it lists by address, addresses strictly rising. What an unlisted address reads as is said
where the memory is read: a `TEXTBUF` byte is unwritten (20_memory.md R45), a `RASTER` byte is unspecified (R46). -/
abbrev Mem := List Host.Cell

/-- What the host drives in one host cycle (10_state.md R37, R39, R40). The ports `text_addr` and `len_data` are
`w(TEXT_MAX)` bits wide (30_encoding.md R73), a width that the configuration fixes: `textPort` (Machine/Operands.lean)
says what they carry of the numbers here (log entry 13). -/
structure HostCycle where
  /-- `text_we` with `text_addr` and `text_data`. -/
  text : Option (Nat × Byte) := none
  /-- `len_we` with `len_data`. -/
  len : Option Nat := none
  /-- `req_valid` with `req_word`, a request newly presented. -/
  req : Option Word := none
deriving DecidableEq, Repr

/-- One thing the host does (30_encoding.md R79; 70_reset_and_hazards.md R159). The list of them in the state is the
host's future as the model sees it; it is no part of the block (log entry 4). -/
inductive HostAction where
  /-- Assert `rst` (70_reset_and_hazards.md R154). -/
  | assertReset
  /-- Release `rst` with this configuration on `cfg_*` (70_reset_and_hazards.md R155). With `rst` released, drive other
  values on `cfg_*`, which the block does not see (R165; log entry 22). -/
  | releaseReset (c : Cfg)
  /-- One host cycle on the text and request ports. -/
  | cycle (c : HostCycle)
  /-- Withdraw the request presented, if any (10_state.md R39). -/
  | withdraw
  /-- Hold the presented request until it is accepted (10_state.md R39, 30_encoding.md R79). -/
  | awaitAccept
  /-- `WAITREADY`: hold until `STATUS.READY = 1` or `STATUS.FAULT = 1` (30_encoding.md R79). -/
  | waitReady
  /-- Change no line for one turn, which the sequencer then has. -/
  | pass
deriving DecidableEq, Repr

/-- The state of the block, of its input lines and of what the host will still do. -/
structure State where
  /-- `W_MAX` and `N_MAX`; no step changes them. -/
  limits : Limits
  /-- The pins that the platform rejects as digital outputs: `PLATFORM_ACCEPTS` (00_scope.md R5, 10_state.md R41). No
  step changes it. -/
  platRejects : List PinId
  /-- The configuration sampled at the last release of reset (10_state.md R19). -/
  cfg : Cfg
  /-- `OUT_RS`, `OUT_E`, `OUT_D[0..3]`. -/
  out : Latches
  /-- `STATE`. -/
  state : BlockState
  /-- `INIT_DONE` (10_state.md R24). -/
  initDone : Bool
  /-- `JOB`. -/
  job : Job
  /-- `CUR_MODE` (10_state.md R26). -/
  curMode : Mode
  /-- `CUR_VAL` (10_state.md R26). -/
  curVal : Byte
  /-- `(BIDX, NIB, USTEP)`. -/
  seq : Seq
  /-- `FAULT` (10_state.md R34). -/
  fault : Bool
  /-- `ERRCODE`. -/
  errCode : ErrCode
  /-- `TEXTLEN` (10_state.md R36). -/
  textLen : Nat
  /-- `TEXTBUF`: the bytes written since reset (20_memory.md R45). -/
  textBuf : Mem
  /-- `RASTER` (20_memory.md R46). -/
  raster : Mem
  /-- Whether the block drives its six pins (10_state.md R17, R22). -/
  driven : Bool
  /-- The trace, oldest event first (10_state.md R13). -/
  trace : List Event
  /-- The input `rst`, true while asserted. -/
  rst : Bool
  /-- The inputs `req_valid` and `req_word`: the request presented and not yet accepted. -/
  req : Option Word
  /-- THE MODEL'S OWN FIELD: what the host will still do, in order. -/
  host : List HostAction
deriving DecidableEq, Repr

/-- Why a step can stop for good. The four faults of 60_exceptions.md R127 are none of these: their entry (R136) is a
next state. -/
inductive Fault where
  /-- Raised by the acceptance of a RENDER that reads a `TEXTBUF` byte not written since reset: the model fault that
  41_layout.md R114 and 60_exceptions.md R126 name. SAFE: the hardware goes on with an unspecified byte, and the model
  gives that run no final state (log entry 7). -/
  | unwrittenText
deriving DecidableEq, Repr

/-- Why a step can be refused. -/
inductive Refusal where
  /-- Raised by an arm of `exec` whose instruction has no meaning yet; no arm is left so. SAFE: the model stops. -/
  | notModelled (mnemonic : String)
  /-- Raised by a sequencer step whose pointer names no byte transfer of the job's byte program, or with no job in
  flight: a state no run reaches (10_state.md R29; treatment `refuse` of S5). SAFE: the model stops (log entry 12). -/
  | pointerPastJob
deriving DecidableEq, Repr

/-- The configuration that `State.reset` holds: the source's example values (00_scope.md R5) and, where it gives none,
the values of 95_test_vectors.md section 0 (CFG-B). DESIGN CHOICE, unsafe for a statement that rests on it; none does
(log entry 3). -/
def resetCfg : Cfg where
  rsPin := 7
  ePin := 8
  dPin0 := 25
  dPin1 := 24
  dPin2 := 23
  dPin3 := 18
  w := 20
  lineAddr := [0x80, 0xC0, 0x94, 0xD4]
  tDelay := 50
  textMax := 64

/-- The machine right after reset (10_state.md R44; 70_reset_and_hazards.md R153, R155): `rst` just released, the
registers at their reset values, the configuration sampled and not yet checked, the pins not driven, an empty trace, no
request presented and nothing scripted for the host. -/
def State.reset : State where
  limits := ⟨20, 4⟩
  platRejects := []
  cfg := resetCfg
  out := Latches.zero
  state := .config
  initDone := false
  job := .init
  curMode := .command
  curVal := 0x00#8
  seq := Seq.start
  fault := false
  errCode := .noFault
  textLen := 0
  textBuf := []
  raster := []
  driven := false
  trace := []
  rst := false
  req := none
  host := []

end Sys2Proof.Machine
end

