-- ==== Sys2Proof/Machine/Flags.lean ====
section
/-! DEFINITION. The status word and its bits (10_state.md R30 to R35), and the numbers that the registers STATE, JOB and
ERRCODE hold. The block has no condition codes. -/

namespace Sys2Proof.Machine

/-- The encoding of `STATE` (10_state.md R23). -/
def stateCode : BlockState → BitVec 3
  | .config => 0
  | .initializing => 1
  | .ready => 2
  | .busy => 3
  | .fault => 4

/-- The encoding of `JOB` (10_state.md R25). -/
def jobCode : Job → BitVec 2
  | .none => 0
  | .init => 1
  | .xfer => 2
  | .render => 3

/-- The code in `ERRCODE` (60_exceptions.md R127). -/
def errBits : ErrCode → BitVec 3
  | .noFault => 0
  | .cfgReject => 1
  | .cfgInvalid => 2
  | .illegalReq => 3
  | .textRange => 4

/-- The number in `USTEP` (40_transfer.md R86). -/
def ustepCode : MicroStep → BitVec 4
  | .setRs => 0
  | .setD0 => 1
  | .setD1 => 2
  | .setD2 => 3
  | .setD3 => 4
  | .settle => 5
  | .raiseE => 6
  | .hold => 7
  | .lowerE => 8
  | .recover => 9

/-- The bit in `NIB` (10_state.md R27). -/
def nibCode : Half → Bool
  | .high => false
  | .low => true

/-- `STATUS.READY`, which is also `req_ready` (10_state.md R31). -/
def State.statusReady (s : State) : Bool := decide (s.state = .ready)

/-- `STATUS.BUSY`: a job is in flight (10_state.md R32). -/
def State.statusBusy (s : State) : Bool := decide (s.state = .initializing ∨ s.state = .busy)

/-- `STATUS` (10_state.md R30): bit 7 reads 0, then ERRCODE, FAULT, INIT_DONE, BUSY, READY. -/
def State.status (s : State) : Byte :=
  0#1 ++ errBits s.errCode ++ BitVec.ofBool s.fault ++ BitVec.ofBool s.initDone ++
    BitVec.ofBool s.statusBusy ++ BitVec.ofBool s.statusReady

end Sys2Proof.Machine
end

