-- ==== Sys2Proof/WellFormed.lean ====
section
/-! DEFINITION. When a configuration is well formed (00_scope.md R6) and when a request is. -/

namespace Sys2Proof

/-- The six pins of a configuration, the set `S` of 10_state.md R14, in the order RS, E, D0..D3. -/
def Cfg.pins (c : Cfg) : List PinId := [c.rsPin, c.ePin, c.dPin0, c.dPin1, c.dPin2, c.dPin3]

/-- The first clause of 00_scope.md R6: the six pin ids are pairwise distinct. -/
def Cfg.pinsDistinct (c : Cfg) : Bool := decide c.pins.Nodup

/-- The second clause of 00_scope.md R6: `1 <= W <= W_MAX`. -/
def Cfg.widthOk (lim : Limits) (c : Cfg) : Bool := decide (1 ≤ c.w ∧ c.w ≤ lim.wMax)

/-- The third clause of 00_scope.md R6: `1 <= N <= N_MAX`. -/
def Cfg.linesOk (lim : Limits) (c : Cfg) : Bool := decide (1 ≤ c.n ∧ c.n ≤ lim.nMax)

/-- The fourth clause of 00_scope.md R6: every `LINE_ADDR[i]` is in `[0x00, 0xFF]`. -/
def Cfg.addressesOk (c : Cfg) : Bool := c.lineAddr.all fun a => decide (a ≤ 0xFF)

/-- 00_scope.md R6, whole. -/
def Cfg.wellFormed (lim : Limits) (c : Cfg) : Bool :=
  c.pinsDistinct && c.widthOk lim && c.linesOk lim && c.addressesOk

/-- A request is well formed whenever it is an `Instr`: both modes and every 8-bit value are legal operands of XFER
(40_transfer.md R96), INIT and RENDER have no operand, and the types admit nothing else (30_encoding.md R64, R65). -/
def Instr.wellFormed : Instr → Bool
  | .init => true
  | .xfer _ _ => true
  | .render => true

end Sys2Proof
end

