-- ==== Sys2Proof/Machine/Operands.lean ====
section
/-! DEFINITION. Operands and their parts: the RS level of a mode, the nibbles of a byte and the bits of a nibble, the
pins behind the logical lines, and the pin set of a configuration. -/

namespace Sys2Proof.Machine

/-- `level(m)`, what RS is driven to (00_scope.md R9, 30_encoding.md R74): Command low, Data high. -/
def level : Mode → Bool
  | .command => false
  | .data => true

/-- `hi(v) = v[7:4]` (40_transfer.md R83). -/
def hi (v : Byte) : Nibble := v.extractLsb' 4 4

/-- `lo(v) = v[3:0]` (40_transfer.md R83). -/
def lo (v : Byte) : Nibble := v.extractLsb' 0 4

/-- `nib(v, NIB)`: the nibble of the byte in flight (40_transfer.md R83). -/
def nib (v : Byte) : Half → Nibble
  | .high => hi v
  | .low => lo v

/-- `n[k]`, what line `Dk` carries (40_transfer.md R84). -/
def nibbleBit (n : Nibble) (k : Nat) : Bool := n.getLsbD k

/-- `PIN(L)`, the physical pin of a logical line (00_scope.md R11). -/
def pinOf (c : Cfg) : Line → PinId
  | .rs => c.rsPin
  | .e => c.ePin
  | .d0 => c.dPin0
  | .d1 => c.dPin1
  | .d2 => c.dPin2
  | .d3 => c.dPin3

/-- A pin put into its place in a rising list. -/
def insertPin (p : PinId) : List PinId → List PinId
  | [] => [p]
  | q :: qs => if p ≤ q then p :: q :: qs else q :: insertPin p qs

/-- The set `S` of a `Configure` event as a rising list: the order in which the pins are configured is no part of the
trace (10_state.md R14). -/
def pinSet (c : Cfg) : List PinId := c.pins.foldr insertPin []

/-- `OUT_L`, the latch of a line (10_state.md R21). -/
def latch (o : Latches) : Line → Bool
  | .rs => o.rs
  | .e => o.e
  | .d0 => o.d0
  | .d1 => o.d1
  | .d2 => o.d2
  | .d3 => o.d3

/-- `OUT_L <- b` (10_state.md R21). -/
def setLatch (o : Latches) (l : Line) (b : Bool) : Latches :=
  match l with
  | .rs => { o with rs := b }
  | .e => { o with e := b }
  | .d0 => { o with d0 := b }
  | .d1 => { o with d1 := b }
  | .d2 => { o with d2 := b }
  | .d3 => { o with d3 := b }

/-- The line byte of the configuration, `LINE_ADDR[i]`, as the 8-bit value that is sent (20_memory.md R49, 41_layout.md
R119). An entry above 0xFF never reaches a transfer: the configuration step refuses it (60_exceptions.md R129). -/
def lineByte (a : Nat) : Byte := BitVec.ofNat 8 a

/-- `w(x)`, the bits of a register or a port that carries the numbers up to `x`: `ceil(log2(x + 1))` (10_state.md
R20). -/
def bitWidth (x : Nat) : Nat := if x = 0 then 0 else x.log2 + 1

/-- What `text_addr` or `len_data` carries of a number that the host drives: its low `w(TEXT_MAX)` bits, unsigned
(10_state.md R37, 30_encoding.md R73). A number that the port can carry is carried as it is; of a wider one the wires
hold the low bits only (DESIGN CHOICE, log entry 13). -/
def textPort (c : Cfg) (n : Nat) : Nat := n % 2 ^ bitWidth c.textMax

/-- The level of the physical pin `p` as the block drives it; `none` where the block does not drive it and the level
at the device is unspecified (10_state.md R17, R21, R22). -/
def State.pinLevel (s : State) (p : PinId) : Option Bool :=
  if s.driven then
    ([.rs, .e, .d0, .d1, .d2, .d3].find? fun l => decide (pinOf s.cfg l = p)).map (latch s.out)
  else none

end Sys2Proof.Machine
end

