-- ==== Sys2Proof/Machine/Ops.lean ====
section
/-! DEFINITION. The named operations over memory, registers and pins that the meanings and the sequencer share: byte
memory, performing an event, fault entry, reset, and starting a job. -/

namespace Sys2Proof.Machine

/-- The byte a memory lists at an address, if any. -/
def Mem.read (m : Mem) (a : Nat) : Option Byte :=
  match m with
  | [] => none
  | (k, b) :: rest => if k = a then some b else Mem.read rest a

/-- `MemWrite(M, a, 1, b)` (00_scope.md R8), keeping the addresses strictly rising. -/
def Mem.write (m : Mem) (a : Nat) (b : Byte) : Mem :=
  match m with
  | [] => [(a, b)]
  | (k, c) :: rest =>
    if a < k then (a, b) :: (k, c) :: rest
    else if a = k then (a, b) :: rest
    else (k, c) :: Mem.write rest a b

/-- The bytes of a list at the addresses from `a` on, as one memory. -/
def Mem.ofBytes (a : Nat) : List Byte → Mem
  | [] => []
  | b :: bs => (a, b) :: Mem.ofBytes (a + 1) bs

/-- Every address of the memory is above `a`, and the addresses rise strictly. -/
def Mem.risesFrom (a : Nat) : Mem → Bool
  | [] => true
  | (k, _) :: rest => decide (a ≤ k) && Mem.risesFrom (k + 1) rest

/-- The canonical form: addresses strictly rising. An unlisted `TEXTBUF` byte reads as no byte at all and an unlisted
`RASTER` byte as an unspecified one, so no entry can equal what an unlisted address reads as. -/
def Mem.wf (m : Mem) : Bool := Mem.risesFrom 0 m

/-- The bytes at the addresses `a`, `a + 1`, ..., `a + k - 1`; `none` where one of them was never written. -/
def Mem.readRange (m : Mem) (a : Nat) : Nat → Option (List Byte)
  | 0 => some []
  | k + 1 =>
    match Mem.read m a, Mem.readRange m (a + 1) k with
    | some b, some bs => some (b :: bs)
    | _, _ => none

/-- `MemRead(RASTER, a, 1)`; a byte that no RENDER has written since reset is unspecified (20_memory.md R46). -/
def State.rasterByte (s : State) (a : Nat) : Byte :=
  (Mem.read s.raster a).getD (Config.rasterReset a)

/-- `emit Set(L, b)`: the event names the physical pin (00_scope.md R11) and the latch takes the level (10_state.md
R15, R21). -/
def emitSet (l : Line) (b : Bool) (s : State) : State :=
  { s with trace := s.trace ++ [.set (pinOf s.cfg l) b], out := setLatch s.out l b }

/-- `emit Wait` (10_state.md R16): it changes no pin. -/
def emitWait (s : State) : State := { s with trace := s.trace ++ [.wait] }

/-- `emit Configure(S)` (10_state.md R14): from here on each pin of `S` is driven at its latch value (R22). -/
def emitConfigure (s : State) : State :=
  { s with trace := s.trace ++ [.configure (pinSet s.cfg)], driven := true }

/-- Fault entry, `raise Fault(c)` (60_exceptions.md R136): the first code is kept; from CONFIG and READY the block stops
at once, during a job it goes on to the job's end (R137), in FAULT nothing more happens. There is no return from a fault
but reset (R139). -/
def raiseFault (c : ErrCode) (s : State) : State :=
  let t := if s.fault then s else { s with fault := true, errCode := c }
  match s.state with
  | .config => { t with state := .fault, job := .none }
  | .ready => { t with state := .fault, job := .none }
  | .initializing => t
  | .busy => t
  | .fault => t

/-- Every register at its reset value, every `TEXTBUF` byte unwritten, `RASTER` unspecified and the pins no longer
driven (10_state.md R44; 70_reset_and_hazards.md R153, R154). The trace stays. -/
def resetRegisters (s : State) : State :=
  { s with
    out := Latches.zero, state := .config, initDone := false, job := .init, curMode := .command, curVal := 0x00#8,
    seq := Seq.start, fault := false, errCode := .noFault, textLen := 0, textBuf := [], raster := [],
    driven := false }

/-- Asserting `rst` (70_reset_and_hazards.md R154): `emit Reset` if the trace is non-empty, then the registers at their
reset values; the job in flight is abandoned. An `rst` already asserted is not asserted again (log entry 14). -/
def assertReset (s : State) : State :=
  if s.rst then s
  else
    { resetRegisters s with
      rst := true, trace := if s.trace.isEmpty then s.trace else s.trace ++ [.reset] }

/-- Releasing `rst` (70_reset_and_hazards.md R155): the configuration inputs are sampled and `STATE` is CONFIG, every
register at its reset value (10_state.md R44). -/
def releaseReset (c : Cfg) (s : State) : State := { resetRegisters s with rst := false, cfg := c }

/-- What starting any job does: the job's kind and the pointer at `(0, 0, 0)` (10_state.md R27, 40_transfer.md R95). -/
def startJob (b : BlockState) (j : Job) (s : State) : State :=
  { s with state := b, job := j, seq := Seq.start }

/-- The guard of every acceptance: a request is accepted only while `req_ready` is 1; otherwise nothing happens
(10_state.md R39). -/
def accept (s : State) (start : State → Host.Outcome State Fault Refusal) :
    Host.Outcome State Fault Refusal :=
  if s.statusReady then start s else .next s

end Sys2Proof.Machine
end

