-- ==== Sys2Proof/Machine/Layout.lean ====
section
/-! DEFINITION. The text-layout rasterizer (41_layout.md sections 1 and 2): splitting a text, laying out a row, the
raster of a list of lines, and the rasterize step. -/

namespace Sys2Proof.Machine

/-- The line-break byte: line feed and no other (41_layout.md R108, D11). -/
abbrev lineBreak : Byte := 0x0A#8

/-- The pad byte: the space (30_encoding.md R77, D12). -/
abbrev pad : Byte := 0x20#8

/-- The loop of `split` in 41_layout.md R109, with its two variables as arguments. -/
def splitLoop (pieces : List (List Byte)) (cur : List Byte) : List Byte → List (List Byte)
  | [] => pieces ++ [cur]
  | b :: bs => if b = lineBreak then splitLoop (pieces ++ [cur]) [] bs else splitLoop pieces (cur ++ [b]) bs

/-- `split(T)`: the text cut at every line break (41_layout.md R109). -/
def split (t : List Byte) : List (List Byte) := splitLoop [] [] t

/-- `row(L, W)`: truncated to `W` bytes and padded with spaces to the right (41_layout.md R110). -/
def row (l : List Byte) (w : Nat) : List Byte := l.take w ++ List.replicate (w - min l.length w) pad

/-- A full blank line (41_layout.md R113). -/
def blankRow (w : Nat) : List Byte := List.replicate w pad

/-- Row `i` of the raster: the `i`-th line laid out, or a blank row where no line remains (41_layout.md R111). -/
def formatRow (p : List (List Byte)) (w i : Nat) : List Byte :=
  match p[i]? with
  | some l => row l w
  | none => blankRow w

/-- `format(P, W, N)`: exactly `N` rows, the missing ones blank and the extra lines dropped (41_layout.md R111). -/
def format (p : List (List Byte)) (w n : Nat) : List (List Byte) := (List.range n).map (formatRow p w)

/-- The whole of `RASTER` from its rows, row-major with no gaps (41_layout.md R114, R115; 20_memory.md R46). -/
def storeRows (rows : List (List Byte)) : Mem := Mem.ofBytes 0 rows.flatten

/-- The rasterize step on a given text (41_layout.md R114). -/
def rasterize (t : List Byte) (s : State) : State :=
  { s with raster := storeRows (format (split t) s.cfg.w s.cfg.n) }

end Sys2Proof.Machine
end

