-- ==== Sys2Proof/Machine/Render.lean ====
section
/-! DEFINITION. The meaning of RENDER: what its acceptance does (40_transfer.md R95, 41_layout.md R114, R118). -/

namespace Sys2Proof.Machine

/-- RENDER (41_layout.md R118): the text is read and rasterized in the accepting step (R107, R114), `STATE <- BUSY;
JOB <- RENDER; seq <- (0, 0, 0)`. A text byte not written since reset is the model fault `unwrittenText` (R114). -/
def execRender (s : State) : Host.Outcome State Fault Refusal :=
  accept s fun s =>
    match Mem.readRange s.textBuf 0 s.textLen with
    | some t => .next (startJob .busy .render (rasterize t s))
    | none => .fault .unwrittenText

end Sys2Proof.Machine
end

