-- ==== Sys2Proof/Machine/Transfer.lean ====
section
/-! DEFINITION. The meanings of INIT and XFER: what their acceptance does (40_transfer.md R95, R96, R101). The events of
the job they start are performed by the sequencer's steps (Machine/Sequencer.lean). -/

namespace Sys2Proof.Machine

/-- INIT (40_transfer.md R101): `STATE <- BUSY; JOB <- INIT; seq <- (0, 0, 0)`. `INIT_DONE` keeps its value. -/
def execInit (s : State) : Host.Outcome State Fault Refusal :=
  accept s fun s => .next (startJob .busy .init s)

/-- XFER (40_transfer.md R96): the operands are latched, `STATE <- BUSY; JOB <- XFER; seq <- (0, 0, 0)`. -/
def execXfer (m : Mode) (v : Byte) (s : State) : Host.Outcome State Fault Refusal :=
  accept s fun s => .next (startJob .busy .xfer { s with curMode := m, curVal := v })

end Sys2Proof.Machine
end

