-- ==== Sys2Proof/Machine/Dispatch.lean ====
section
/-! DEFINITION. The meaning of each request, one arm per constructor. -/

namespace Sys2Proof.Machine

def exec (i : Instr) (s : State) : Host.Outcome State Fault Refusal :=
  match i with
  | .init => Sys2Proof.Machine.execInit s
  | .xfer m v => Sys2Proof.Machine.execXfer m v s
  | .render => Sys2Proof.Machine.execRender s

end Sys2Proof.Machine
end

