-- ==== Sys2Proof/Machine/Ports.lean ====
section
/-! DEFINITION. The host's ports: text byte writes and length writes (20_memory.md R47, R48), the request handshake
(10_state.md R39) and the acceptance of an illegal word (60_exceptions.md R130). -/

namespace Sys2Proof.Machine

/-- A text byte write (20_memory.md R47); out of range it raises TEXT_RANGE and writes nothing (60_exceptions.md R131). -/
def textWrite (a : Nat) (b : Byte) (s : State) : State :=
  if s.cfg.textMax ≤ a then raiseFault .textRange s else { s with textBuf := Mem.write s.textBuf a b }

/-- A length write (20_memory.md R48); out of range it raises TEXT_RANGE and writes nothing (60_exceptions.md R131). -/
def lengthWrite (n : Nat) (s : State) : State :=
  if s.cfg.textMax < n then raiseFault .textRange s else { s with textLen := n }

/-- The text byte write of a host cycle, if `text_we` is 1, at the address its port carries (30_encoding.md R73). -/
def applyText (c : HostCycle) (s : State) : State :=
  match c.text with
  | some (a, b) => textWrite (textPort s.cfg a) b s
  | none => s

/-- The length write of a host cycle, if `len_we` is 1, of the number its port carries (30_encoding.md R73). -/
def applyLength (c : HostCycle) (s : State) : State :=
  match c.len with
  | some n => lengthWrite (textPort s.cfg n) s
  | none => s

/-- The text-port writes of one host cycle, the byte write first (60_exceptions.md R135). -/
def applyWrites (c : HostCycle) (s : State) : State := applyLength c (applyText c s)

/-- A request newly presented on `req_valid` and `req_word`. A request held until then was withdrawn by presenting this
one (log entry 5). -/
def present (c : HostCycle) (s : State) : State :=
  match c.req with
  | some w => { s with req := some w }
  | none => s

/-- The acceptance of a word that decodes to ILLEGAL: ILLEGAL_REQ, no job, no event (60_exceptions.md R130). -/
def execIllegal (s : State) : Host.Outcome State Fault Refusal :=
  accept s fun s => .next (raiseFault .illegalReq s)

/-- What accepting the word `w` does: the meaning of the request it decodes to, or ILLEGAL_REQ (10_state.md R39). -/
def execWord (w : Word) (s : State) : Host.Outcome State Fault Refusal :=
  match decode w with
  | some i => exec i s
  | none => execIllegal s

/-- Whether `req_valid` and `req_ready` are both 1 (10_state.md R39). -/
def handshake (s : State) : Bool := s.req.isSome && s.statusReady

/-- The accepting host step: the request presented is consumed and runs (10_state.md R39). -/
def acceptRequest (s : State) : Host.Outcome State Fault Refusal :=
  match s.req with
  | some w => execWord w { s with req := none }
  | none => .next s

end Sys2Proof.Machine
end

