-- ==== Sys2Proof/Machine/Encoder.lean ====
section
/-! DEFINITION. The nibble encoder (40_transfer.md sections 1 and 2): what one micro-step does on the lines, and, beside
it, the whole event lists of a nibble transfer, a byte transfer and a byte program. -/

namespace Sys2Proof.Machine

/-- A byte transfer `(m, v)` (00_scope.md R10). -/
structure Transfer where
  mode : Mode
  value : Byte
deriving DecidableEq, Repr

/-- What one micro-step does, on logical lines. -/
inductive LineOp where
  | set (l : Line) (b : Bool)
  | wait
deriving DecidableEq, Repr

/-- `ev` of 40_transfer.md R97 for the byte transfer in flight: the row `USTEP` of the table of R86. -/
def lineOp (x : Transfer) (h : Half) : MicroStep → LineOp
  | .setRs => .set .rs (level x.mode)
  | .setD0 => .set .d0 (nibbleBit (nib x.value h) 0)
  | .setD1 => .set .d1 (nibbleBit (nib x.value h) 1)
  | .setD2 => .set .d2 (nibbleBit (nib x.value h) 2)
  | .setD3 => .set .d3 (nibbleBit (nib x.value h) 3)
  | .settle => .wait
  | .raiseE => .set .e true
  | .hold => .wait
  | .lowerE => .set .e false
  | .recover => .wait

/-- Perform a micro-step: record its event and apply it to the latches (40_transfer.md R98, 10_state.md R21). -/
def perform (o : LineOp) (s : State) : State :=
  match o with
  | .set l b => emitSet l b s
  | .wait => emitWait s

/-- `NIB(m, n)` as the ten events of 40_transfer.md R86, on the physical pins of a configuration. -/
def nibbleEvents (c : Cfg) (m : Mode) (n : Nibble) : List Event :=
  [.set c.rsPin (level m), .set c.dPin0 (nibbleBit n 0), .set c.dPin1 (nibbleBit n 1), .set c.dPin2 (nibbleBit n 2),
    .set c.dPin3 (nibbleBit n 3), .wait, .set c.ePin true, .wait, .set c.ePin false, .wait]

/-- The twenty events of a byte transfer: the high nibble, then the low nibble (40_transfer.md R92). -/
def transferEvents (c : Cfg) (x : Transfer) : List Event :=
  nibbleEvents c x.mode (hi x.value) ++ nibbleEvents c x.mode (lo x.value)

/-- The trace of a byte program: the concatenation of its byte transfers in list order (40_transfer.md R97). -/
def programEvents (c : Cfg) (p : List Transfer) : List Event := p.flatMap (transferEvents c)

end Sys2Proof.Machine
end

