-- ==== Sys2Proof/Machine/Sequencer.lean ====
section
/-! DEFINITION. The sequencer: the byte program of each job (40_transfer.md R97, R100; 41_layout.md R117), the advance of
the pointer (10_state.md R28), the end of a job (40_transfer.md R99), the configuration step (70_reset_and_hazards.md
R156) and the sequencer's one step in each state (40_transfer.md R98). -/

namespace Sys2Proof.Machine

/-- `bytes(INIT)`: three Command transfers in this fixed order (40_transfer.md R100, 90_conflicts.md C1). -/
def initProgram : List Transfer := [⟨.command, 0x28#8⟩, ⟨.command, 0x0C#8⟩, ⟨.command, 0x01#8⟩]

/-- The byte transfers of one line of a RENDER: its line address as a Command, then its `W` characters as Data
(41_layout.md R117, R119, R120). `a` is the raster address of its first character. -/
def lineProgram (s : State) (addr a : Nat) : List Transfer :=
  ⟨.command, lineByte addr⟩ :: (List.range s.cfg.w).map fun j => ⟨.data, s.rasterByte (a + j)⟩

/-- `bytes(RENDER)`: the lines in order, line `i` from raster address `i * W` on (41_layout.md R115, R117). -/
def renderProgram (s : State) : List Transfer :=
  (List.range s.cfg.n).flatMap fun i => lineProgram s (s.cfg.lineAddr.getD i 0) (i * s.cfg.w)

/-- `bytes(JOB)` (40_transfer.md R97); with no job in flight there is no byte. -/
def byteProgram (s : State) : List Transfer :=
  match s.job with
  | .none => []
  | .init => initProgram
  | .xfer => [⟨s.curMode, s.curVal⟩]
  | .render => renderProgram s

/-- `USTEP + 1` for `USTEP < 9`; `none` at 9 (10_state.md R28). -/
def nextMicroStep : MicroStep → Option MicroStep
  | .setRs => some .setD0
  | .setD0 => some .setD1
  | .setD1 => some .setD2
  | .setD2 => some .setD3
  | .setD3 => some .settle
  | .settle => some .raiseE
  | .raiseE => some .hold
  | .hold => some .lowerE
  | .lowerE => some .recover
  | .recover => none

/-- The advance of the pointer in a job of `len` byte transfers; `none` is the end of the job (10_state.md R28). -/
def advance (len : Nat) (q : Seq) : Option Seq :=
  match nextMicroStep q.ustep with
  | some u => some { q with ustep := u }
  | none =>
    match q.nib with
    | .high => some { q with nib := .low, ustep := .setRs }
    | .low => if q.bidx + 1 < len then some ⟨q.bidx + 1, .high, .setRs⟩ else none

/-- End of job (40_transfer.md R99). The pointer keeps its final value (95_test_vectors.md section L3). -/
def endJob (s : State) : State :=
  { s with
    initDone := s.initDone || decide (s.state = .initializing)
    job := .none
    state := if s.fault then .fault else .ready }

/-- What follows the event of a job step: the pointer advances, or the job ends (10_state.md R28, 40_transfer.md R99). -/
def moveOn (len : Nat) (s : State) : State :=
  match advance len s.seq with
  | some q => { s with seq := q }
  | none => endJob s

/-- One step of a job: perform the event that the pointer names and move on (40_transfer.md R97, R98). -/
def jobStep (s : State) : Host.Outcome State Fault Refusal :=
  match (byteProgram s)[s.seq.bidx]? with
  | some x => .next (moveOn (byteProgram s).length (perform (lineOp x s.seq.nib s.seq.ustep) s))
  | none => .refused .pointerPastJob

/-- `PLATFORM_ACCEPTS(p)` (00_scope.md R5, 10_state.md R41). -/
def platformAccepts (s : State) (p : PinId) : Bool := decide (p ∉ s.platRejects)

/-- Whether the sampled configuration breaks 00_scope.md R6. -/
def configBroken (s : State) : Bool := !s.cfg.wellFormed s.limits

/-- The configuration step (70_reset_and_hazards.md R156): well-formedness first (CFG_INVALID), then the platform
(CFG_REJECT), else `Configure(S)` and the reset-time INIT job (40_transfer.md R102; 60_exceptions.md R128, R129, R135). -/
def configStep (s : State) : State :=
  if configBroken s then raiseFault .cfgInvalid s
  else if s.cfg.pins.any fun p => !platformAccepts s p then raiseFault .cfgReject s
  else startJob .initializing .init (emitConfigure s)

/-- The sequencer's step in each state (40_transfer.md R98). In READY and FAULT it has none, and the block stays as it
is (60_exceptions.md R140, R149). -/
def sequencerStep (s : State) : Host.Outcome State Fault Refusal :=
  match s.state with
  | .config => .next (configStep s)
  | .initializing => jobStep s
  | .busy => jobStep s
  | .ready => .next s
  | .fault => .next s

end Sys2Proof.Machine
end

