-- ==== Sys2Proof/Machine/Turn.lean ====
section
/-! DEFINITION. Whose turn a step is: one step per host action and one per sequencer event (10_state.md R18). The host's
actions stand in the state in their order; between two of them the sequencer has as many steps as the host leaves it
(70_reset_and_hazards.md R177, S12; log entry 4). -/

namespace Sys2Proof.Machine

/-- A turn in which the host changes no line: nothing while `rst` is asserted (70_reset_and_hazards.md R154), the
acceptance of a request where both handshake lines are 1, else the sequencer's step. -/
def quietTurn (s : State) : Host.Outcome State Fault Refusal :=
  if s.rst then .next s
  else if handshake s then acceptRequest s
  else sequencerStep s

/-- A host cycle: the text-port writes, then the request (60_exceptions.md R135). While `rst` is asserted the text port
accepts nothing (10_state.md R40) and a request is only presented. -/
def hostCycle (c : HostCycle) (s : State) : Host.Outcome State Fault Refusal :=
  if s.rst then .next (present c s)
  else
    let t := present c (applyWrites c s)
    if handshake t then acceptRequest t else .next t

/-- One turn: `a` is the host's next action and `rest` the ones after it. An action that holds stays the next one until
what it waits for has come (30_encoding.md R79). Releasing an `rst` that is released changes `cfg_*` only, which the block
does not see (70_reset_and_hazards.md R165): a host cycle that drives no port (log entries 14, 22). -/
def hostTurn (a : HostAction) (rest : List HostAction) (s : State) : Host.Outcome State Fault Refusal :=
  match a with
  | .assertReset => .next (assertReset { s with host := rest })
  | .releaseReset c =>
    if s.rst then .next (releaseReset c { s with host := rest }) else hostCycle {} { s with host := rest }
  | .cycle c => hostCycle c { s with host := rest }
  | .withdraw => .next { s with host := rest, req := none }
  | .awaitAccept => if s.req.isNone then .next { s with host := rest } else quietTurn s
  | .waitReady =>
    if (s.statusReady || s.fault) && !handshake s then .next { s with host := rest } else quietTurn s
  | .pass => quietTurn { s with host := rest }

/-- One turn of the block and its host. -/
def turn (s : State) : Host.Outcome State Fault Refusal :=
  match s.host with
  | [] => quietTurn s
  | a :: rest => hostTurn a rest s

/-- The word that a host presents for an instruction of `nbits` bits numbered as the opcode table numbers them: bits
above `nbits` are 0 (30_encoding.md R64, R72). -/
def tableWord (nbits w : Nat) : Word := BitVec.ofNat 16 (w % 2 ^ nbits)

/-- The state in which the very next step accepts the request word: `rst` released and READY with the initialization
done (10_state.md R24, R25, R39), and the host presenting the word in its next cycle (log entry 17). -/
def placeWord (s : State) (w : Word) : State :=
  { s with rst := false, state := .ready, initDone := true, job := .none,
           host := .cycle { req := some w } :: s.host }

end Sys2Proof.Machine
end

