-- ==== Sys2Proof/Machine/Step.lean ====
section
/-! DEFINITION. The step of the machine, and the placing of one request where the next step fetches it. -/

namespace Sys2Proof.Machine

/-- One step of the block and its host: three outcomes, next state, model fault, refusal. -/
def step (s : State) : Host.Outcome State Fault Refusal := turn s

/-- The state `s` with the request of `nbits` bits presented where the next step accepts it. -/
def State.withFetchWord (s : State) (nbits w : Nat) : State := placeWord s (tableWord nbits w)

end Sys2Proof.Machine
end

