-- ==== Sys2Proof/Machine/HostProgram.lean ====
section
/-! DEFINITION. Host programs: the host actions of 30_encoding.md R79 and the pseudo-instructions of R80, each as the list
of actions it expands to. -/

namespace Sys2Proof.Machine

/-- `RESET`: assert and release `rst` with the configuration `c` on `cfg_*` (30_encoding.md R79). -/
def hostReset (c : Cfg) : List HostAction := [.assertReset, .releaseReset c]

/-- `TEXT a, b`: a text byte write (30_encoding.md R79). -/
def hostText (a : Nat) (b : Byte) : List HostAction := [.cycle { text := some (a, b) }]

/-- `TEXTLEN n`: a length write (30_encoding.md R79). -/
def hostTextLen (n : Nat) : List HostAction := [.cycle { len := some n }]

/-- `.word w`: present the word and hold it until it is accepted (30_encoding.md R78, R79). -/
def hostWord (w : Word) : List HostAction := [.cycle { req := some w }, .awaitAccept]

/-- A request mnemonic (30_encoding.md R78, R79). -/
def hostRequest (i : Instr) : List HostAction := hostWord (encode i)

/-- `CMD v` (30_encoding.md R80). -/
def hostCmd (v : Byte) : List HostAction := hostRequest (.xfer .command v)

/-- `DATA v` (30_encoding.md R80). -/
def hostData (v : Byte) : List HostAction := hostRequest (.xfer .data v)

/-- `CLEAR` (30_encoding.md R80). -/
def hostClear : List HostAction := hostCmd 0x01#8

/-- `SETLINE i`, defined for `0 <= i < N` (30_encoding.md R80). -/
def hostSetLine (c : Cfg) (i : Nat) : Option (List HostAction) :=
  (c.lineAddr[i]?).map fun a => hostCmd (lineByte a)

/-- The text writes of `PUTS`, from address `a` on (30_encoding.md R80). -/
def hostTexts (a : Nat) : List Byte → List HostAction
  | [] => []
  | b :: bs => hostText a b ++ hostTexts (a + 1) bs

/-- `PUTS "s"`: the bytes, the length, then RENDER (30_encoding.md R80). -/
def hostPuts (s : List Byte) : List HostAction :=
  hostTexts 0 s ++ hostTextLen s.length ++ hostRequest .render

end Sys2Proof.Machine
end

