-- ==== Sys2Proof/Machine/Timing.lean ====
section
/-! DEFINITION. Timing as the spec gives it: lower bounds only, one `T_DELAY` for each `Wait` (10_state.md R16,
70_reset_and_hazards.md R171, R172). The model keeps no clock. -/

namespace Sys2Proof.Machine

/-- How many `Wait` events a piece of trace holds. -/
def waits (tr : List Event) : Nat := tr.count .wait

/-- The least time a piece of trace can take, in units of `T_DELAY`'s own (70_reset_and_hazards.md R171). -/
def minDuration (c : Cfg) (tr : List Event) : Nat := waits tr * c.tDelay

end Sys2Proof.Machine
end

