-- ==== Sys2Proof/Safety.lean ====
section
/-! DEFINITION. What counts as a good end of a run (70_reset_and_hazards.md R174, R175) and the invariants of the block:
relations between registers that every reachable state meets, each from the rules it cites. -/

namespace Sys2Proof.Machine

/-- `k` steps of the machine, stopping at the first model fault or refusal. -/
def runSteps : Nat → State → Host.Outcome State Fault Refusal
  | 0, s => .next s
  | k + 1, s =>
    match step s with
    | .next t => runSteps k t
    | .fault r => .fault r
    | .refused r => .refused r

/-- Whether a host that drives `hs` changes no line in the next `k` turns and leaves them all to the sequencer, while the
block is not READY: it has nothing left to do, passes, waits for READY with no fault pending (`fault` is FAULT), or
waits for the acceptance of the request it holds (`held` says whether there is one) (30_encoding.md R79). -/
def quietHost (fault held : Bool) : Nat → List HostAction → Bool
  | 0, _ => true
  | _ + 1, [] => true
  | k + 1, .pass :: rest => quietHost fault held k rest
  | _ + 1, .waitReady :: _ => !fault
  | _ + 1, .awaitAccept :: _ => held
  | _ + 1, .assertReset :: _ => false
  | _ + 1, .releaseReset _ :: _ => false
  | _ + 1, .cycle _ :: _ => false
  | _ + 1, .withdraw :: _ => false

/-- What is left of the host's actions after `k` such turns: a pass is over with its turn, a wait goes on. -/
def hostAfter : Nat → List HostAction → List HostAction
  | k + 1, .pass :: rest => hostAfter k rest
  | _, hs => hs

/-- The host of a state changes no line in the next `k` turns. -/
def State.quietFor (s : State) (k : Nat) : Bool := quietHost s.fault s.req.isSome k s.host

/-- A job is in flight (10_state.md R32). -/
def State.running (s : State) : Bool := s.statusBusy

/-- The end of a run (70_reset_and_hazards.md R174): the host has nothing left to do and the block no step left. A
request still presented in READY would be accepted, so it is no end; in FAULT it is held for ever (60_exceptions.md
R140). -/
def State.ended (s : State) : Bool :=
  s.host.isEmpty && !s.rst && (decide (s.state = .ready) && s.req.isNone || decide (s.state = .fault))

/-- The good end of a run (70_reset_and_hazards.md R175). A run with a model fault has no state at its end at all. -/
def State.goodEnd (s : State) : Bool := s.ended && decide (s.state = .ready) && !s.fault

/-- Whether the block drives the pins after a trace: from a `Configure` to the next `Reset` (10_state.md R17, R22). -/
def drivenAfter : List Event → Bool :=
  List.foldl (fun d e => match e with
    | .configure _ => true
    | .reset => false
    | .set _ _ => d
    | .wait => d) false

/-- The level last set on pin `p` since the last `Reset` of a trace, 0 if none was (10_state.md R21, R22). -/
def levelAfter (p : PinId) : List Event → Bool :=
  List.foldl (fun v e => match e with
    | .set q b => if q = p then b else v
    | .reset => false
    | .configure _ => v
    | .wait => v) false

/-- What the registers hold in each value of `STATE` (10_state.md R23 to R25; 60_exceptions.md R128, R129, R136, R137). -/
def stateInv (s : State) : Prop :=
  match s.state with
  | .config => s.job = .init ∧ s.initDone = false ∧ s.fault = false ∧ s.driven = false
  | .initializing => s.job = .init ∧ s.initDone = false ∧ s.driven = true
  | .ready => s.job = .none ∧ s.initDone = true ∧ s.fault = false ∧ s.driven = true
  | .busy => s.job ≠ .none ∧ s.initDone = true ∧ s.driven = true
  | .fault => s.job = .none ∧ s.fault = true ∧ s.driven = s.initDone

/-- The block's invariant. -/
structure BlockInv (s : State) : Prop where
  /-- While `rst` is asserted every register has its reset value (10_state.md R44). -/
  inReset : s.rst = true → resetRegisters s = s
  /-- What goes with each value of `STATE`. -/
  perState : stateInv s
  /-- `ERRCODE` is 0 exactly while `FAULT` is 0 (10_state.md R35). -/
  errCode : s.fault = false ↔ s.errCode = .noFault
  /-- Only TEXT_RANGE is raised during a job (60_exceptions.md R137). -/
  faultInJob : s.running = true → s.fault = true → s.errCode = .textRange
  /-- Only a well-formed configuration is ever driven (70_reset_and_hazards.md R156). -/
  configured : s.driven = true → s.cfg.wellFormed s.limits = true
  /-- The pointer names a byte of the job in flight (10_state.md R29). -/
  pointer : s.running = true → s.seq.bidx < (byteProgram s).length
  /-- `BIDX` is at most the number that its width is made for, also after the job's end (10_state.md R20, R29). -/
  bidx : s.seq.bidx ≤ s.limits.nMax * (s.limits.wMax + 1)
  /-- `TEXTLEN` is in `[0, TEXT_MAX]` (10_state.md R36). -/
  textLen : s.textLen ≤ s.cfg.textMax
  /-- `TEXTBUF` has addresses below `TEXT_MAX` only (20_memory.md R45). -/
  textBuf : ∀ c ∈ s.textBuf, c.1 < s.cfg.textMax
  /-- `RASTER` is written before a RENDER reads it (20_memory.md R46). -/
  rasterWritten : s.job = .render → ∀ a < s.cfg.n * s.cfg.w, (Mem.read s.raster a).isSome = true

/-- Both memories are in canonical form. -/
def MemoryInv (s : State) : Prop := Mem.wf s.textBuf = true ∧ Mem.wf s.raster = true

/-- The strobe law (40_transfer.md R103): E is high exactly between the `Set(E, 1)` and the `Set(E, 0)` of a nibble in
flight. -/
def StrobeInv (s : State) : Prop :=
  s.out.e = true ↔ s.running = true ∧ (s.seq.ustep = .hold ∨ s.seq.ustep = .lowerE)

/-- The level that line RS or `Dk` takes in a nibble of the byte transfer `x` (30_encoding.md R74, R75); E is no part of
it. -/
def presented (x : Transfer) (h : Half) : Line → Option Bool
  | .rs => some (level x.mode)
  | .d0 => some (nibbleBit (nib x.value h) 0)
  | .d1 => some (nibbleBit (nib x.value h) 1)
  | .d2 => some (nibbleBit (nib x.value h) 2)
  | .d3 => some (nibbleBit (nib x.value h) 3)
  | .e => none

/-- The lines already set in the nibble in flight when the next micro-step is `u` (40_transfer.md R86 to R88). -/
def linesSetBefore : MicroStep → List Line
  | .setRs => []
  | .setD0 => [.rs]
  | .setD1 => [.rs, .d0]
  | .setD2 => [.rs, .d0, .d1]
  | .setD3 => [.rs, .d0, .d1, .d2]
  | .settle => [.rs, .d0, .d1, .d2, .d3]
  | .raiseE => [.rs, .d0, .d1, .d2, .d3]
  | .hold => [.rs, .d0, .d1, .d2, .d3]
  | .lowerE => [.rs, .d0, .d1, .d2, .d3]
  | .recover => [.rs, .d0, .d1, .d2, .d3]

/-- The setup and hold law (40_transfer.md R104): from its setting to the end of the nibble, each of RS and D0..D3 holds
the level that the nibble in flight gives it; so all five do from before the settle `Wait` until after the recovery
`Wait`. -/
def LinesInv (s : State) : Prop :=
  s.running = true → ∀ x, (byteProgram s)[s.seq.bidx]? = some x →
    ∀ l ∈ linesSetBefore s.seq.ustep, presented x s.seq.nib l = some (latch s.out l)

/-- The latches and the trace agree (10_state.md R21, R22): the pins are driven exactly from `Configure` to `Reset`, each
latch holds the level last set on its pin, and nothing is set while the pins are not driven. -/
def TraceInv (s : State) : Prop :=
  s.driven = drivenAfter s.trace ∧
  (∀ l, latch s.out l = levelAfter (pinOf s.cfg l) s.trace) ∧
  (s.driven = false → ∀ p, levelAfter p s.trace = false)

end Sys2Proof.Machine
end

