-- ==== Sys2Proof/Certificates/Slice0/Obligations.lean ====
section
/-! DEFINITION. The statements about the block for the provers, in the order of OBLIGATIONS.json: encoding, accepting a
request, the nibble encoder, the sequencer and its jobs, configuration and reset, the status word, the text port, faults,
the rasterizer, the invariants that every step keeps. -/

open Sys2Proof Sys2Proof.Machine

/-! Encoding -/

/-- The decoder answers a request exactly on its encoded word, for every operand (30_encoding.md R67 to R70). -/
def Obligations.DecodeExactlyEncodedWords : Prop :=
  ∀ (w : Word) (i : Instr), decode w = some i ↔ w = encode i

/-- The decoder reads the fields OP, RSV, M and V, and refuses a reserved OP, a nonzero RSV and a nonzero operand of
INIT or RENDER (30_encoding.md R64, R66). -/
def Obligations.DecodeReadsRequestFields : Prop :=
  ∀ w : Word,
    decode w =
      if w.extractLsb' 12 4 = 0b0001#4 ∧ w.extractLsb' 9 3 = 0#3 ∧ w.getLsbD 8 = false ∧ w.extractLsb' 0 8 = 0x00#8 then
        some .init
      else if w.extractLsb' 12 4 = 0b0010#4 ∧ w.extractLsb' 9 3 = 0#3 then
        some (.xfer (if w.getLsbD 8 then .data else .command) (w.extractLsb' 0 8))
      else if
          w.extractLsb' 12 4 = 0b0011#4 ∧ w.extractLsb' 9 3 = 0#3 ∧ w.getLsbD 8 = false ∧ w.extractLsb' 0 8 = 0x00#8 then
        some .render
      else none

/-- The worked encodings, and why the last two words are illegal (30_encoding.md R82); and the words of INIT and RENDER
(R67, R69). -/
def Obligations.WorkedEncodings : Prop :=
  encode (.xfer .command 0x28#8) = 0x2028#16 ∧ encode (.xfer .command 0x28#8) = 0b0010000000101000#16 ∧
  decode 0x2028#16 = some (.xfer .command 0x28#8) ∧
  encode (.xfer .data 0x48#8) = 0x2148#16 ∧ encode (.xfer .data 0x48#8) = 0b0010000101001000#16 ∧
  decode 0x2148#16 = some (.xfer .data 0x48#8) ∧
  decode 0x2200#16 = none ∧ (0x2200#16).extractLsb' 9 3 = 0b001#3 ∧
  decode 0x1001#16 = none ∧ (0x1001#16).extractLsb' 12 4 = 0b0001#4 ∧ (0x1001#16).extractLsb' 0 8 = 0x01#8 ∧
  decode 0x1000#16 = some .init ∧ decode 0x3000#16 = some .render

/-! Accepting a request -/

/-- A step in READY at which a word is presented that decodes to a request runs that request. The word is presented in
this host cycle (10_state.md R39); or, the model's choice for a word held on the port (log entry 5, DEDUCED), the host
changes no line in this turn: it has nothing left to do, waits for the acceptance or for READY, or passes. Around `exec`
the step consumes the request and, where the host's action is over with it, that action; a wait goes on over it. -/
def Obligations.StepRunsDecodedRequest : Prop :=
  (∀ (s : State) (w : Word) (i : Instr) (rest : List HostAction),
    s.rst = false → s.state = .ready → decode w = some i → s.host = .cycle { req := some w } :: rest →
      step s = exec i { s with host := rest, req := none }) ∧
  (∀ (s : State) (w : Word) (i : Instr),
    s.rst = false → s.state = .ready → decode w = some i → s.req = some w →
    (s.host = [] ∨ ∃ rest, s.host = .awaitAccept :: rest ∨ s.host = .waitReady :: rest) →
      step s = exec i { s with req := none }) ∧
  (∀ (s : State) (w : Word) (i : Instr) (rest : List HostAction),
    s.rst = false → s.state = .ready → decode w = some i → s.req = some w → s.host = .pass :: rest →
      step s = exec i { s with host := rest, req := none })

/-- Accepting an illegal word consumes it, starts no job, emits no event and puts the block into FAULT with code 3, the
first code being kept (60_exceptions.md R130). The word is presented in this host cycle; or, the model's choice for a
word held on the port (log entry 5, DEDUCED), the host changes no line in this turn. -/
def Obligations.IllegalRequestStopsBlock : Prop :=
  ∀ (s : State) (w : Word) (rest : List HostAction),
    s.rst = false → s.state = .ready → decode w = none →
    s.host = .cycle { req := some w } :: rest ∨
      (s.req = some w ∧
        (s.host = .pass :: rest ∨
          s.host = rest ∧ (rest = [] ∨ ∃ l, rest = .awaitAccept :: l ∨ rest = .waitReady :: l))) →
      step s = .next { s with
        host := rest, req := none, fault := true, errCode := if s.fault then s.errCode else .illegalReq,
        state := .fault, job := .none }

/-- While READY is 0 a request is not accepted: presenting it leaves it on the port, and the sequencer's steps leave it
there (10_state.md R39). The model's choices in it, both DEDUCED: what the meaning of a request answers outside READY,
where no run calls it (log entry 19), and that a word newly presented replaces one held before (log entry 5). -/
def Obligations.RequestHeldWhileNotReady : Prop :=
  (∀ (i : Instr) (s : State), s.state ≠ .ready → exec i s = .next s) ∧
  (∀ (s : State) (w : Word) (rest : List HostAction),
    s.rst = false → s.state ≠ .ready → s.host = .cycle { req := some w } :: rest →
      step s = .next { s with host := rest, req := some w }) ∧
  (∀ (s t : State) (w : Word),
    s.rst = false → s.state ≠ .ready → s.quietFor 1 = true → s.req = some w → step s = .next t → t.req = some w)

/-- Accepting a request starts its job in the accepting step, which emits no event: BUSY, the decoded kind, the pointer
at (0, 0, 0), XFER's operands latched, RENDER's text rasterized (40_transfer.md R95). RENDER completes when every byte of
its text was written. -/
def Obligations.AcceptanceStartsJob : Prop :=
  ∀ (i : Instr) (s : State),
    s.state = .ready → (i = .render → ∀ a < s.textLen, (Mem.read s.textBuf a).isSome = true) →
      ∃ t, exec i s = .next t ∧ t.state = .busy ∧ t.seq = ⟨0, .high, .setRs⟩ ∧ t.trace = s.trace ∧
        match i with
        | .init => t.job = .init
        | .xfer m v => t.job = .xfer ∧ t.curMode = m ∧ t.curVal = v
        | .render =>
          t.job = .render ∧
          ∃ l : List Byte, l.length = s.textLen ∧ (∀ a < s.textLen, Mem.read s.textBuf a = l[a]?) ∧
            ∀ r < s.cfg.n, ∀ j < s.cfg.w,
              Mem.read t.raster (r * s.cfg.w + j) = ((format (split l) s.cfg.w s.cfg.n)[r]?).bind fun x => x[j]?

/-- INIT at acceptance: BUSY, JOB = INIT, the pointer at the start, and nothing else changes; INIT_DONE keeps its value
(40_transfer.md R101). -/
def Obligations.InitAcceptance : Prop :=
  ∀ s : State, s.state = .ready →
    exec .init s = .next { s with state := .busy, job := .init, seq := ⟨0, .high, .setRs⟩ }

/-- XFER at acceptance, for every mode and value: the operands latched, BUSY, JOB = XFER, the pointer at the start, and
nothing else changes (40_transfer.md R96). -/
def Obligations.XferAcceptance : Prop :=
  ∀ (s : State) (m : Mode) (v : Byte), s.state = .ready →
    exec (.xfer m v) s =
      .next { s with curMode := m, curVal := v, state := .busy, job := .xfer, seq := ⟨0, .high, .setRs⟩ }

/-- The rasterize step of a RENDER: with every text byte written, character `j` of line `r` is at raster address
`r * W + j`, the raster lists exactly `N * W` bytes, and only STATE, JOB, seq and RASTER change; a text byte not written
since reset is the model fault UnwrittenText (41_layout.md R114, R115). -/
def Obligations.RenderRasterizes : Prop :=
  (∀ (s : State) (l : List Byte),
    s.state = .ready → l.length = s.textLen → (∀ a < s.textLen, Mem.read s.textBuf a = l[a]?) →
      ∃ t, exec .render s = .next t ∧
        t = { s with state := .busy, job := .render, seq := ⟨0, .high, .setRs⟩, raster := t.raster } ∧
        (∀ r < s.cfg.n, ∀ j < s.cfg.w, ∃ b,
          ((format (split l) s.cfg.w s.cfg.n)[r]?).bind (fun x => x[j]?) = some b ∧
          Mem.read t.raster (r * s.cfg.w + j) = some b) ∧
        ∀ a, s.cfg.n * s.cfg.w ≤ a → Mem.read t.raster a = none) ∧
  (∀ (s : State) (a : Nat),
    s.state = .ready → a < s.textLen → Mem.read s.textBuf a = none → exec .render s = .fault .unwrittenText)

/-- What no request changes at acceptance: pins, latches, INIT_DONE, the fault registers, TEXTLEN, every byte of TEXTBUF,
the trace, the configuration and the host's lines; CUR_MODE and CUR_VAL change for XFER only, RASTER for RENDER only. -/
def Obligations.AcceptanceFrame : Prop :=
  ∀ (i : Instr) (s t : State), exec i s = .next t →
    t.limits = s.limits ∧ t.platRejects = s.platRejects ∧ t.cfg = s.cfg ∧ t.out = s.out ∧ t.initDone = s.initDone ∧
    t.fault = s.fault ∧ t.errCode = s.errCode ∧ t.textLen = s.textLen ∧ t.driven = s.driven ∧ t.trace = s.trace ∧
    t.rst = s.rst ∧ t.req = s.req ∧ t.host = s.host ∧
    (∀ a, Mem.read t.textBuf a = Mem.read s.textBuf a) ∧
    (i ≠ .render → ∀ a, Mem.read t.raster a = Mem.read s.raster a) ∧
    ((∀ m v, i ≠ .xfer m v) → t.curMode = s.curMode ∧ t.curVal = s.curVal)

/-! The nibble encoder -/

/-- Line `Dk` carries bit `k` of the nibble: for the high nibble bits 4 to 7 of the byte, for the low nibble bits 0 to 3
(40_transfer.md R84). -/
def Obligations.DataLinesCarryNibbleBits : Prop :=
  ∀ x : Transfer,
    lineOp x .high .setD0 = .set .d0 (x.value.getLsbD 4) ∧ lineOp x .high .setD1 = .set .d1 (x.value.getLsbD 5) ∧
    lineOp x .high .setD2 = .set .d2 (x.value.getLsbD 6) ∧ lineOp x .high .setD3 = .set .d3 (x.value.getLsbD 7) ∧
    lineOp x .low .setD0 = .set .d0 (x.value.getLsbD 0) ∧ lineOp x .low .setD1 = .set .d1 (x.value.getLsbD 1) ∧
    lineOp x .low .setD2 = .set .d2 (x.value.getLsbD 2) ∧ lineOp x .low .setD3 = .set .d3 (x.value.getLsbD 3)

/-- A nibble transfer is exactly these ten events, in this order (40_transfer.md R86). -/
def Obligations.NibbleTransferIsTenEvents : Prop :=
  ∀ (s : State) (x : Transfer),
    s.rst = false → s.running = true → s.quietFor 10 = true → (byteProgram s)[s.seq.bidx]? = some x →
    s.seq.ustep = .setRs →
      ∃ t, runSteps 10 s = .next t ∧
        t.trace = s.trace ++
          [.set s.cfg.rsPin (decide (x.mode = .data)),
            .set s.cfg.dPin0 ((nib x.value s.seq.nib).getLsbD 0), .set s.cfg.dPin1 ((nib x.value s.seq.nib).getLsbD 1),
            .set s.cfg.dPin2 ((nib x.value s.seq.nib).getLsbD 2), .set s.cfg.dPin3 ((nib x.value s.seq.nib).getLsbD 3),
            .wait, .set s.cfg.ePin true, .wait, .set s.cfg.ePin false, .wait]

/-- A byte transfer is the high nibble's transfer, then the low nibble's: twenty events, six of them waits, two settings
of RS, eight of data lines, two rises and two falls of E (40_transfer.md R92). -/
def Obligations.ByteTransferIsTwentyEvents : Prop :=
  (∀ (s : State) (x : Transfer),
    s.rst = false → s.running = true → s.quietFor 20 = true → (byteProgram s)[s.seq.bidx]? = some x →
    s.seq.nib = .high → s.seq.ustep = .setRs →
      ∃ t, runSteps 20 s = .next t ∧
        t.trace = s.trace ++ (nibbleEvents s.cfg x.mode (hi x.value) ++ nibbleEvents s.cfg x.mode (lo x.value))) ∧
  (∀ (c : Cfg) (x : Transfer), c.pinsDistinct = true →
    (transferEvents c x).length = 20 ∧ (transferEvents c x).count .wait = 6 ∧
    (transferEvents c x).count (.set c.rsPin (level x.mode)) = 2 ∧
    ([c.dPin0, c.dPin1, c.dPin2, c.dPin3].map fun p =>
      (transferEvents c x).count (.set p true) + (transferEvents c x).count (.set p false)).sum = 8 ∧
    (transferEvents c x).count (.set c.ePin true) = 2 ∧ (transferEvents c x).count (.set c.ePin false) = 2)

/-! The sequencer and its jobs -/

/-- The advance of the pointer after the event it names: the next micro-step, else the low nibble, else the next byte,
else the end of the job with the pointer kept (10_state.md R28). -/
def Obligations.PointerAdvance : Prop :=
  ∀ (s : State) (x : Transfer),
    s.rst = false → s.running = true → s.quietFor 1 = true → (byteProgram s)[s.seq.bidx]? = some x →
      ∃ t, step s = .next t ∧
        (s.seq.ustep ≠ .recover →
          ustepCode t.seq.ustep = ustepCode s.seq.ustep + 1 ∧ t.seq.nib = s.seq.nib ∧ t.seq.bidx = s.seq.bidx ∧
          t.state = s.state) ∧
        (s.seq.ustep = .recover → s.seq.nib = .high → t.seq = ⟨s.seq.bidx, .low, .setRs⟩ ∧ t.state = s.state) ∧
        (s.seq.ustep = .recover → s.seq.nib = .low → s.seq.bidx + 1 < (byteProgram s).length →
          t.seq = ⟨s.seq.bidx + 1, .high, .setRs⟩ ∧ t.state = s.state) ∧
        (s.seq.ustep = .recover → s.seq.nib = .low → s.seq.bidx + 1 = (byteProgram s).length →
          t.seq = s.seq ∧ t.running = false)

/-- The end of a job: with its last event, a recovery wait, INIT_DONE is set if it was the reset-time INIT, JOB is NONE
and STATE is READY, or FAULT if a fault is pending; E is low (40_transfer.md R99). -/
def Obligations.EndOfJob : Prop :=
  ∀ (s : State) (x : Transfer),
    s.rst = false → s.running = true → s.quietFor 1 = true → (byteProgram s)[s.seq.bidx]? = some x →
    s.seq.bidx + 1 = (byteProgram s).length → s.seq.nib = .low → s.seq.ustep = .recover →
      ∃ t, step s = .next t ∧ t.trace = s.trace ++ [.wait] ∧ t.job = .none ∧
        t.state = (if s.fault then .fault else .ready) ∧
        t.initDone = (if s.state = .initializing then true else s.initDone) ∧
        (StrobeInv s → t.out.e = false)

/-- The initialization byte program is these three Command transfers in this order (40_transfer.md R100). -/
def Obligations.InitializationBytes : Prop :=
  ∀ s : State, s.job = .init →
    byteProgram s = [⟨.command, 0x28#8⟩, ⟨.command, 0x0C#8⟩, ⟨.command, 0x01#8⟩]

/-- The byte program of a RENDER has `N * (W + 1)` bytes; byte `i * (W + 1)` is line `i`'s address, an 8-bit value, as a
Command and byte `i * (W + 1) + k` the raster byte `i * W + k - 1` as Data (41_layout.md R117). -/
def Obligations.RenderByteAddressing : Prop :=
  ∀ s : State, s.job = .render →
    (byteProgram s).length = s.cfg.n * (s.cfg.w + 1) ∧
    ∀ i < s.cfg.n,
      (∀ a, a ≤ 0xFF → s.cfg.lineAddr[i]? = some a →
        (byteProgram s)[i * (s.cfg.w + 1)]? = some ⟨.command, BitVec.ofNat 8 a⟩) ∧
      ∀ k b, 1 ≤ k → k ≤ s.cfg.w → Mem.read s.raster (i * s.cfg.w + k - 1) = some b →
        (byteProgram s)[i * (s.cfg.w + 1) + k]? = some ⟨.data, b⟩

/-- A RENDER's trace begins with the transfer of line 0's address, its byte `i * (W + 1)` is line `i`'s address, an 8-bit
value, as a Command, and no other byte of it is a Command (41_layout.md R123). -/
def Obligations.OnlyLineStartsAreCommands : Prop :=
  ∀ s : State, s.job = .render →
    (∀ a, a ≤ 0xFF → s.cfg.lineAddr[0]? = some a → (byteProgram s)[0]? = some ⟨.command, BitVec.ofNat 8 a⟩) ∧
    (∀ a, a ≤ 0xFF → s.cfg.lineAddr[0]? = some a →
      s.rst = false → s.running = true → s.quietFor 20 = true → s.seq = ⟨0, .high, .setRs⟩ →
        ∃ t, runSteps 20 s = .next t ∧ t.trace = s.trace ++ transferEvents s.cfg ⟨.command, BitVec.ofNat 8 a⟩) ∧
    (∀ i a, a ≤ 0xFF → s.cfg.lineAddr[i]? = some a →
      (byteProgram s)[i * (s.cfg.w + 1)]? = some ⟨.command, BitVec.ofNat 8 a⟩) ∧
    ∀ k x, (byteProgram s)[k]? = some x → x.mode = .command → ∃ i < s.cfg.n, k = i * (s.cfg.w + 1)

/-- A job runs, while the host changes no line, to its end in exactly 20 steps a byte, its trace is the concatenation of its
byte transfers, it stays in flight until the last event, and then the block is READY, or in FAULT if a fault is pending
(40_transfer.md R97, R99, R105; 70_reset_and_hazards.md R173). -/
def Obligations.JobRunsToItsEnd : Prop :=
  ∀ s : State,
    s.rst = false → s.running = true → s.quietFor (20 * (byteProgram s).length) = true →
    s.seq = ⟨0, .high, .setRs⟩ → 1 ≤ (byteProgram s).length →
      (∃ t, runSteps (20 * (byteProgram s).length) s = .next t ∧
        t.trace = s.trace ++ programEvents s.cfg (byteProgram s) ∧ t.job = .none ∧
        t.state = (if s.fault then .fault else .ready) ∧
        t.initDone = (if s.state = .initializing then true else s.initDone) ∧
        t.seq = ⟨(byteProgram s).length - 1, .low, .recover⟩ ∧
        t.textBuf = s.textBuf ∧ t.textLen = s.textLen ∧ t.raster = s.raster ∧ t.curMode = s.curMode ∧
        t.curVal = s.curVal ∧ t.fault = s.fault ∧ t.errCode = s.errCode ∧ t.cfg = s.cfg ∧ t.driven = s.driven ∧
        t.req = s.req ∧ t.host = hostAfter (20 * (byteProgram s).length) s.host) ∧
      ∀ k < 20 * (byteProgram s).length, ∃ u, runSteps k s = .next u ∧ u.state = s.state ∧ u.job = s.job

/-- The count law: a job of `L` byte transfers has `20 * L` events, `6 * L` of them waits, `2 * L` settings of RS,
`8 * L` of data lines, `2 * L` rises and `2 * L` falls of E; XFER has 20 events, INIT 60, RENDER `20 * N * (W + 1)`
(40_transfer.md R105). -/
def Obligations.JobEventCounts : Prop :=
  (∀ (c : Cfg) (p : List Transfer), c.pinsDistinct = true →
    (programEvents c p).length = 20 * p.length ∧ (programEvents c p).count .wait = 6 * p.length ∧
    (programEvents c p).count (.set c.rsPin true) + (programEvents c p).count (.set c.rsPin false) = 2 * p.length ∧
    ([c.dPin0, c.dPin1, c.dPin2, c.dPin3].map fun q =>
      (programEvents c p).count (.set q true) + (programEvents c p).count (.set q false)).sum = 8 * p.length ∧
    (programEvents c p).count (.set c.ePin true) = 2 * p.length ∧
    (programEvents c p).count (.set c.ePin false) = 2 * p.length) ∧
  (∀ s : State,
    (s.job = .xfer → (programEvents s.cfg (byteProgram s)).length = 20) ∧
    (s.job = .init → (programEvents s.cfg (byteProgram s)).length = 60) ∧
    (s.job = .render → (programEvents s.cfg (byteProgram s)).length = 20 * s.cfg.n * (s.cfg.w + 1)))

/-- An XFER presented in READY is accepted and, while the host then changes no line, performed: twenty events, high nibble
first, BUSY from acceptance to the end of the job, then READY (40_transfer.md R96). A word held before is replaced by
the one presented (log entry 5, DEDUCED). -/
def Obligations.XferRequestEmitsItsByte : Prop :=
  ∀ (s : State) (m : Mode) (v : Byte) (rest : List HostAction),
    s.rst = false → s.state = .ready → s.fault = false →
    s.host = .cycle { req := some (encode (.xfer m v)) } :: rest → quietHost false false 20 rest = true →
      (∃ t, runSteps 21 s = .next t ∧
        t.trace = s.trace ++ (nibbleEvents s.cfg m (v.extractLsb' 4 4) ++ nibbleEvents s.cfg m (v.extractLsb' 0 4)) ∧
        t.curMode = m ∧ t.curVal = v ∧ t.statusReady = true ∧ t.statusBusy = false ∧ t.initDone = s.initDone) ∧
      ∀ k, 1 ≤ k → k ≤ 20 → ∃ u, runSteps k s = .next u ∧ u.statusReady = false ∧ u.statusBusy = true

/-- An INIT presented in READY is accepted and, while the host then changes no line, performs the three commands again:
sixty events, eighteen of them waits, INIT_DONE kept (40_transfer.md R101). A word held before is replaced by the one
presented (log entry 5, DEDUCED). -/
def Obligations.InitRequestEmitsSixtyEvents : Prop :=
  ∀ (s : State) (rest : List HostAction),
    s.rst = false → s.state = .ready → s.fault = false →
    s.host = .cycle { req := some 0x1000#16 } :: rest → quietHost false false 60 rest = true →
      (∃ t e, runSteps 61 s = .next t ∧ t.trace = s.trace ++ e ∧
        e = transferEvents s.cfg ⟨.command, 0x28#8⟩ ++ transferEvents s.cfg ⟨.command, 0x0C#8⟩ ++
          transferEvents s.cfg ⟨.command, 0x01#8⟩ ∧
        e.length = 60 ∧ e.count .wait = 18 ∧
        t.statusReady = true ∧ t.statusBusy = false ∧ t.initDone = s.initDone) ∧
      ∀ k, 1 ≤ k → k ≤ 60 → ∃ u, runSteps k s = .next u ∧ u.statusReady = false ∧ u.statusBusy = true

/-- A RENDER presented in READY with its text written transmits, while the host then changes no line, the whole layout:
each line's address, an 8-bit value, as a Command and its `W` laid-out characters as Data, line by line, and the block is
READY again (41_layout.md R118). A word held before is replaced by the one presented (log entry 5, DEDUCED). -/
def Obligations.RenderRequestTransmitsLayout : Prop :=
  ∀ (s : State) (l : List Byte) (rest : List HostAction),
    s.rst = false → s.state = .ready → s.fault = false → s.host = .cycle { req := some 0x3000#16 } :: rest →
    quietHost false false (20 * (s.cfg.n * (s.cfg.w + 1))) rest = true →
    l.length = s.textLen → (∀ a < s.textLen, Mem.read s.textBuf a = l[a]?) → 1 ≤ s.cfg.n →
    (∀ a ∈ s.cfg.lineAddr, a ≤ 0xFF) →
      ∃ t, runSteps (1 + 20 * (s.cfg.n * (s.cfg.w + 1))) s = .next t ∧
        t.trace = s.trace ++ programEvents s.cfg
          ((s.cfg.lineAddr.zip (format (split l) s.cfg.w s.cfg.n)).flatMap fun p =>
            ⟨.command, BitVec.ofNat 8 p.1⟩ :: p.2.map fun b => ⟨.data, b⟩) ∧
        t.statusReady = true ∧ t.statusBusy = false ∧ t.initDone = s.initDone

/-- Two RENDERs accepted with the same text and the same configuration, the hosts then changing no line, emit the same
events, whatever else their states hold (41_layout.md R122). A word held before is replaced by the one presented (log
entry 5, DEDUCED). -/
def Obligations.RenderTwiceSameEvents : Prop :=
  ∀ (s₁ s₂ : State) (rest₁ rest₂ : List HostAction),
    s₁.rst = false → s₂.rst = false → s₁.state = .ready → s₂.state = .ready → s₁.cfg = s₂.cfg → 1 ≤ s₁.cfg.n →
    s₁.host = .cycle { req := some 0x3000#16 } :: rest₁ → s₂.host = .cycle { req := some 0x3000#16 } :: rest₂ →
    quietHost s₁.fault false (20 * (s₁.cfg.n * (s₁.cfg.w + 1))) rest₁ = true →
    quietHost s₂.fault false (20 * (s₁.cfg.n * (s₁.cfg.w + 1))) rest₂ = true →
    s₁.textLen = s₂.textLen →
    (∀ a < s₁.textLen, (Mem.read s₁.textBuf a).isSome = true ∧ Mem.read s₁.textBuf a = Mem.read s₂.textBuf a) →
      ∃ e t₁ t₂,
        runSteps (1 + 20 * (s₁.cfg.n * (s₁.cfg.w + 1))) s₁ = .next t₁ ∧ t₁.trace = s₁.trace ++ e ∧
        runSteps (1 + 20 * (s₁.cfg.n * (s₁.cfg.w + 1))) s₂ = .next t₂ ∧ t₂.trace = s₂.trace ++ e

/-! Configuration and reset -/

/-- The configuration step: a configuration that breaks R6 raises CFG_INVALID before the platform is asked, a rejected
pin raises CFG_REJECT, and otherwise the six pins are configured in one event and the INIT job starts
(70_reset_and_hazards.md R156). A fault keeps an earlier code (60_exceptions.md R136). -/
def Obligations.ConfigurationStep : Prop :=
  ∀ s : State, s.rst = false → s.quietFor 1 = true → s.state = .config →
    (¬ (s.cfg.pins.Nodup ∧ (1 ≤ s.cfg.w ∧ s.cfg.w ≤ s.limits.wMax) ∧ (1 ≤ s.cfg.n ∧ s.cfg.n ≤ s.limits.nMax) ∧
        ∀ a ∈ s.cfg.lineAddr, a ≤ 0xFF) →
      step s = .next { s with
        host := hostAfter 1 s.host, fault := true, errCode := if s.fault then s.errCode else .cfgInvalid,
        state := .fault, job := .none }) ∧
    (s.cfg.pins.Nodup ∧ (1 ≤ s.cfg.w ∧ s.cfg.w ≤ s.limits.wMax) ∧ (1 ≤ s.cfg.n ∧ s.cfg.n ≤ s.limits.nMax) ∧
        (∀ a ∈ s.cfg.lineAddr, a ≤ 0xFF) →
      ((∃ p ∈ s.cfg.pins, p ∈ s.platRejects) →
        step s = .next { s with
          host := hostAfter 1 s.host, fault := true, errCode := if s.fault then s.errCode else .cfgReject,
          state := .fault, job := .none }) ∧
      ((∀ p ∈ s.cfg.pins, p ∉ s.platRejects) →
        ∃ pins, pins.Perm s.cfg.pins ∧
          step s = .next { s with
            host := hostAfter 1 s.host, trace := s.trace ++ [.configure pins], driven := true,
            state := .initializing, job := .init, seq := ⟨0, .high, .setRs⟩ }))

/-- After a successful configuration the trace gets `Configure(S)` and the sixty events of the initialization, the block
is READY with INIT_DONE, and it was not READY before the last of the 61 events (70_reset_and_hazards.md R157). -/
def Obligations.BootSequence : Prop :=
  ∀ s : State,
    s.rst = false → s.quietFor 61 = true → s.state = .config → s.fault = false →
    s.cfg.wellFormed s.limits = true → (∀ p ∈ s.cfg.pins, p ∉ s.platRejects) →
      (∃ t, runSteps 61 s = .next t ∧
        t.trace = s.trace ++ .configure (pinSet s.cfg) ::
          (transferEvents s.cfg ⟨.command, 0x28#8⟩ ++ transferEvents s.cfg ⟨.command, 0x0C#8⟩ ++
            transferEvents s.cfg ⟨.command, 0x01#8⟩) ∧
        t.state = .ready ∧ t.initDone = true) ∧
      ∀ k ≤ 60, ∃ u, runSteps k s = .next u ∧ u.statusReady = false

/-- Asserting `rst`: a `Reset` event if the trace is non-empty, the job abandoned, every register at its reset value, the
pins no longer driven; while `rst` stays asserted no step changes anything but the host's own script and the request it
presents (70_reset_and_hazards.md R154). The model's choices in it (log entry 14, DEDUCED): TEXTBUF and RASTER lose their
bytes at the assertion, a request stays on the port through reset and can be put on it while `rst` is asserted, and a
second assertion records no second `Reset`. -/
def Obligations.ResetAssertion : Prop :=
  (∀ (s : State) (rest : List HostAction), s.rst = false → s.host = .assertReset :: rest →
    step s = .next
      { limits := s.limits, platRejects := s.platRejects, cfg := s.cfg,
        out := ⟨false, false, false, false, false, false⟩, state := .config, initDone := false, job := .init,
        curMode := .command, curVal := 0x00#8, seq := ⟨0, .high, .setRs⟩, fault := false, errCode := .noFault,
        textLen := 0, textBuf := [], raster := [], driven := false,
        trace := if s.trace = [] then [] else s.trace ++ [.reset], rst := true, req := s.req, host := rest }) ∧
  ∀ s : State, s.rst = true → (∀ c rest, s.host ≠ .releaseReset c :: rest) →
    ∃ h r, step s = .next { s with host := h, req := r }

/-- Releasing `rst` samples the configuration inputs and leaves CONFIG; while `rst` is released a change of the inputs is
not seen (70_reset_and_hazards.md R155, R165). The model's choices in it, all DEDUCED: that the release action with `rst`
released stands for such a change (log entry 22) and does nothing else (log entry 14); and that a word held on the port in
READY is accepted in that turn as in any other (log entry 5). -/
def Obligations.ReleaseSamplesConfiguration : Prop :=
  (∀ (s : State) (c : Cfg) (rest : List HostAction), s.rst = true → s.host = .releaseReset c :: rest →
    ∃ t, step s = .next t ∧ t.rst = false ∧ t.cfg = c ∧ t.state = .config ∧ t.limits = s.limits ∧ t.trace = s.trace) ∧
  (∀ (s : State) (c : Cfg) (rest : List HostAction),
    s.rst = false → s.req = none ∨ s.state ≠ .ready → s.host = .releaseReset c :: rest →
      step s = .next { s with host := rest }) ∧
  (∀ (s : State) (c : Cfg) (w : Word) (rest : List HostAction),
    s.rst = false → s.req = some w → s.state = .ready → s.host = .releaseReset c :: rest →
      (∀ i, decode w = some i → step s = exec i { s with host := rest, req := none }) ∧
      (decode w = none → step s = .next { s with
        host := rest, req := none, fault := true, errCode := if s.fault then s.errCode else .illegalReq,
        state := .fault, job := .none }))

/-- The reset values, while `rst` is asserted and at its release: every register as the table gives it, STATUS 0x00, no
text byte written, the raster unspecified; the trace is not cleared, and `Reset` is appended when `rst` is asserted after
the first event (10_state.md R44). The model's choices in it: an unwritten RASTER byte is the free value of its address
after each reset (log entry 8, DESIGN CHOICE), and both memories lose their bytes already at the assertion (log entry 14,
DEDUCED). -/
def Obligations.RegistersAtReset : Prop :=
  ∀ (s : State) (a : HostAction) (rest : List HostAction), s.host = a :: rest →
    ((a = .assertReset ∧ s.rst = false) ∨ (∃ c, a = .releaseReset c ∧ s.rst = true)) →
      ∃ t, step s = .next t ∧
        t.out = ⟨false, false, false, false, false, false⟩ ∧ t.state = .config ∧ t.initDone = false ∧ t.job = .init ∧
        t.curMode = .command ∧ t.curVal = 0x00#8 ∧ t.seq = ⟨0, .high, .setRs⟩ ∧ t.fault = false ∧
        t.errCode = .noFault ∧ t.textLen = 0 ∧ t.status = 0x00#8 ∧ (∀ k, Mem.read t.textBuf k = none) ∧
        (∀ k, t.rasterByte k = Config.rasterReset k) ∧ (∀ c, a = .releaseReset c → t.cfg = c) ∧
        t.trace = (if a = .assertReset ∧ s.trace ≠ [] then s.trace ++ [.reset] else s.trace)

/-- The configuration of the block never changes while `rst` is released (10_state.md R19). That the bounds of the
hardware and the platform's answers never change at all is the model's choice (log entry 2, DESIGN CHOICE). -/
def Obligations.ConfigurationFixedWhileReleased : Prop :=
  ∀ s t : State, step s = .next t →
    t.limits = s.limits ∧ t.platRejects = s.platRejects ∧ (s.rst = false → t.cfg = s.cfg)

/-- The pins: while driven, the level of a line's pin is its latch, and a successful configuration starts every pin at
its latch value (10_state.md R21, R22). That a pin which the block does not drive has no level, where the spec leaves its
level unspecified (R17, R22), is the model's choice (log entry 15, DEDUCED). -/
def Obligations.PinLevelsFollowLatches : Prop :=
  (∀ (s : State) (l : Line), s.driven = true → s.cfg.pinsDistinct = true →
    s.pinLevel (pinOf s.cfg l) = some (latch s.out l)) ∧
  (∀ (s : State) (p : PinId), s.driven = false → s.pinLevel p = none) ∧
  (∀ (s : State) (l : Line), s.rst = false → s.quietFor 1 = true → s.state = .config → s.cfg.wellFormed s.limits = true →
    (∀ p ∈ s.cfg.pins, p ∉ s.platRejects) →
      ∃ t, step s = .next t ∧ t.pinLevel (pinOf s.cfg l) = some (latch s.out l))

/-! The status word -/

/-- The bits of STATUS: READY, BUSY, INIT_DONE, FAULT, ERRCODE with the codes of R127, and bit 7 reading 0; and it
changes only as its source registers change (10_state.md R30 to R33). -/
def Obligations.StatusWordBits : Prop :=
  (∀ s : State,
    s.status.getLsbD 0 = decide (s.state = .ready) ∧
    s.status.getLsbD 1 = decide (s.state = .initializing ∨ s.state = .busy) ∧
    s.status.getLsbD 2 = s.initDone ∧ s.status.getLsbD 3 = s.fault ∧
    s.status.extractLsb' 4 3 =
      (match s.errCode with
       | .noFault => 0#3
       | .cfgReject => 1#3
       | .cfgInvalid => 2#3
       | .illegalReq => 3#3
       | .textRange => 4#3) ∧
    s.status.getLsbD 7 = false) ∧
  ∀ s t : State, t.state = s.state → t.initDone = s.initDone → t.fault = s.fault → t.errCode = s.errCode →
    t.status = s.status

/-! The text port -/

/-- A text byte write, in any state: in range the byte is there afterwards and marked written, every other byte is as
before and nothing else changes; out of range, at an address that the port's `w(TEXT_MAX)` bits carry, TEXT_RANGE is
raised and TEXTBUF is unchanged; either way no event (20_memory.md R47; 30_encoding.md R73). -/
def Obligations.TextByteWrite : Prop :=
  ∀ (s : State) (a : Nat) (b : Byte) (rest : List HostAction),
    s.rst = false → s.req = none ∨ s.state ≠ .ready → s.host = .cycle { text := some (a, b) } :: rest →
      ∃ t, step s = .next t ∧ t.trace = s.trace ∧ t.out = s.out ∧
        (a < s.cfg.textMax →
          t = { s with host := rest, textBuf := t.textBuf } ∧
          ∀ k, Mem.read t.textBuf k = if k = a then some b else Mem.read s.textBuf k) ∧
        (s.cfg.textMax ≤ a → a < 2 ^ bitWidth s.cfg.textMax →
          t.fault = true ∧ (s.fault = false → t.errCode = .textRange) ∧ t.textBuf = s.textBuf)

/-- A length write, in any state: up to TEXT_MAX it sets TEXTLEN and changes nothing else; above it, for a number that
the port's `w(TEXT_MAX)` bits carry, TEXT_RANGE is raised and TEXTLEN is unchanged; either way no event (20_memory.md
R48; 30_encoding.md R73). -/
def Obligations.LengthWrite : Prop :=
  ∀ (s : State) (n : Nat) (rest : List HostAction),
    s.rst = false → s.req = none ∨ s.state ≠ .ready → s.host = .cycle { len := some n } :: rest →
      (n ≤ s.cfg.textMax → step s = .next { s with host := rest, textLen := n }) ∧
      (s.cfg.textMax < n → n < 2 ^ bitWidth s.cfg.textMax →
        ∃ t, step s = .next t ∧ t.fault = true ∧ (s.fault = false → t.errCode = .textRange) ∧
          t.textLen = s.textLen ∧ t.trace = s.trace)

/-- TEXT_RANGE, by a text address or a length out of range, in every state but reset: the write has no effect; from
CONFIG and READY the block stops at once; during a job and in FAULT only FAULT and ERRCODE can change, and the first
code is kept (60_exceptions.md R131, R136, R137). -/
def Obligations.TextRangeFault : Prop :=
  ∀ (s : State) (c : HostCycle) (rest : List HostAction),
    s.rst = false → s.req = none ∨ s.state ≠ .ready →
    ((∃ a b, c = { text := some (a, b) } ∧ s.cfg.textMax ≤ a ∧ a < 2 ^ bitWidth s.cfg.textMax) ∨
      (∃ n, c = { len := some n } ∧ s.cfg.textMax < n ∧ n < 2 ^ bitWidth s.cfg.textMax)) →
    s.host = .cycle c :: rest →
      (s.state = .config ∨ s.state = .ready →
        step s = .next { s with
          host := rest, fault := true, errCode := if s.fault then s.errCode else .textRange,
          state := .fault, job := .none }) ∧
      (s.state = .initializing ∨ s.state = .busy ∨ s.state = .fault →
        step s = .next { s with
          host := rest, fault := true, errCode := if s.fault then s.errCode else .textRange })

/-- In one host cycle the text byte write is applied first, then the length write, then the request (60_exceptions.md
R135): a word accepted in that cycle, newly presented or held, is accepted on the state after the writes, whether it is a
request or illegal; and in a cycle in READY with an out-of-range write TEXT_RANGE is the fault recorded, whatever word is
presented or held. That the word is then not accepted and stays on the port is the model's choice (log entry 6, DEDUCED),
and so is that a word newly presented replaces one held before (log entry 5, DEDUCED). -/
def Obligations.SameCycleOrder : Prop :=
  (∀ (s u : State) (x : Option (Nat × Byte)) (y : Option Nat) (r : Option Word) (w : Word) (rest : List HostAction),
    s.rst = false → s.state = .ready → (∀ a b, x = some (a, b) → a < s.cfg.textMax) →
    (∀ n, y = some n → n ≤ s.cfg.textMax) → r.or s.req = some w →
    s.host = .cycle { text := x, len := y, req := r } :: rest →
    u = { s with
      textBuf := (x.map fun p => Mem.write s.textBuf p.1 p.2).getD s.textBuf, textLen := y.getD s.textLen, host := rest,
      req := none } →
      (∀ i, decode w = some i → step s = exec i u) ∧
      (decode w = none → step s = .next { u with
        fault := true, errCode := if s.fault then s.errCode else .illegalReq, state := .fault, job := .none })) ∧
  (∀ (s : State) (a : Nat) (b : Byte) (x : Option Nat) (r : Option Word) (rest : List HostAction),
    s.rst = false → s.state = .ready → s.cfg.textMax ≤ a → a < 2 ^ bitWidth s.cfg.textMax →
    s.host = .cycle { text := some (a, b), len := x, req := r } :: rest →
      ∃ t, step s = .next t ∧
        t = { s with
          host := rest, req := r.or s.req, fault := true,
          errCode := if s.fault then s.errCode else .textRange, state := .fault, job := .none, textLen := t.textLen } ∧
        (x = none → t.textLen = s.textLen) ∧ ∀ n, x = some n → n ≤ s.cfg.textMax → t.textLen = n) ∧
  (∀ (s : State) (n : Nat) (x : Option (Nat × Byte)) (r : Option Word) (rest : List HostAction),
    s.rst = false → s.state = .ready → s.cfg.textMax < n → n < 2 ^ bitWidth s.cfg.textMax →
    s.host = .cycle { text := x, len := some n, req := r } :: rest →
      ∃ t, step s = .next t ∧
        t = { s with
          host := rest, req := r.or s.req, fault := true,
          errCode := if s.fault then s.errCode else .textRange, state := .fault, job := .none, textBuf := t.textBuf } ∧
        (x = none → t.textBuf = s.textBuf) ∧
        ∀ a b, x = some (a, b) → a < s.cfg.textMax →
          ∀ k, Mem.read t.textBuf k = if k = a then some b else Mem.read s.textBuf k)

/-- `w(x)` is the least number of bits that is enough for `x` (10_state.md R20), and the text port is `w(TEXT_MAX)` bits
wide: of the numbers that a host drives on `text_addr` and `len_data` the step sees what these bits carry, every number
up to TEXT_MAX as it is (30_encoding.md R73). That a wider number stands for its low bits is the model's choice (log
entry 13, DESIGN CHOICE). -/
def Obligations.TextPortCarriesItsWidth : Prop :=
  (∀ x : Nat, x < 2 ^ bitWidth x ∧ ∀ k, x < 2 ^ k → bitWidth x ≤ k) ∧
  (∀ (c : Cfg) (n : Nat), textPort c n < 2 ^ bitWidth c.textMax ∧ (n ≤ c.textMax → textPort c n = n)) ∧
  ∀ (s : State) (c : HostCycle) (rest : List HostAction), s.host = .cycle c :: rest →
    step s = step { s with
      host := .cycle
        { text := c.text.map fun p => (textPort s.cfg p.1, p.2), len := c.len.map (textPort s.cfg), req := c.req } ::
        rest }

/-- What a job performs is fixed when it starts: no step that leaves it in flight changes its byte program, whatever the
host writes (20_memory.md R62, 70_reset_and_hazards.md R170). -/
def Obligations.ByteProgramFixedDuringJob : Prop :=
  ∀ s t : State, s.running = true → t.running = true → step s = .next t → byteProgram t = byteProgram s

/-! Faults -/

/-- Only reset clears FAULT and ERRCODE and leaves the FAULT state: every other step keeps them, and asserting `rst`
clears them (60_exceptions.md R139). -/
def Obligations.OnlyResetClearsFault : Prop :=
  (∀ s t : State, s.rst = false → s.fault = true → (∀ rest, s.host ≠ .assertReset :: rest) → step s = .next t →
    t.fault = true ∧ t.errCode = s.errCode ∧ (s.state = .fault → t.state = .fault)) ∧
  (∀ (s : State) (rest : List HostAction), s.rst = false → s.host = .assertReset :: rest →
    ∃ t, step s = .next t ∧ t.fault = false ∧ t.errCode = .noFault ∧ t.state = .config)

/-- In FAULT the sequencer has no step and no request is accepted: until reset, a step emits no event, moves no latch,
starts no job, and leaves a presented request presented unless the host itself changes it; in-range text writes are
still applied (60_exceptions.md R140). -/
def Obligations.FaultStateIsStuck : Prop :=
  (∀ s t : State, s.rst = false → s.state = .fault → (∀ rest, s.host ≠ .assertReset :: rest) → step s = .next t →
    t.trace = s.trace ∧ t.out = s.out ∧ t.job = s.job ∧ t.statusReady = false ∧ t.raster = s.raster) ∧
  (∀ s : State, s.rst = false → s.state = .fault → s.quietFor 1 = true →
    step s = .next { s with host := hostAfter 1 s.host }) ∧
  (∀ (s : State) (a : Nat) (b : Byte) (rest : List HostAction),
    s.rst = false → s.state = .fault → a < s.cfg.textMax → s.host = .cycle { text := some (a, b) } :: rest →
      ∃ t, step s = .next t ∧ Mem.read t.textBuf a = some b)

/-! The rasterizer -/

/-- Splitting: a text without line feed is one piece, a line feed ends a piece and begins the next, so there is one piece
more than there are line feeds and none holds one; the empty text gives one empty piece, a trailing line feed a last
empty piece, and a trailing empty piece does not change the raster (41_layout.md R109). -/
def Obligations.SplitLaw : Prop :=
  (∀ a : List Byte, 0x0A#8 ∉ a → split a = [a]) ∧
  (∀ a b : List Byte, 0x0A#8 ∉ a → split (a ++ 0x0A#8 :: b) = a :: split b) ∧
  (∀ t : List Byte, (split t).length = t.count 0x0A#8 + 1 ∧ ∀ p ∈ split t, 0x0A#8 ∉ p) ∧
  split [] = [[]] ∧
  (∀ t : List Byte, (split (t ++ [0x0A#8])).getLast? = some []) ∧
  ∀ (p : List (List Byte)) (w n : Nat), format (p ++ [[]]) w n = format p w n

/-- A row has exactly `W` bytes: the first bytes of the line, as many as fit, and then spaces (41_layout.md R110). -/
def Obligations.RowLayout : Prop :=
  ∀ (l : List Byte) (w : Nat),
    (row l w).length = w ∧
    (∀ k < w, k < l.length → (row l w)[k]? = l[k]?) ∧
    (∀ k < w, l.length ≤ k → (row l w)[k]? = some 0x20#8)

/-- The formatter law: exactly `N` rows of `W` bytes, the first `min(k, N)` of them the laid-out lines in order and the
others all spaces (41_layout.md R121). -/
def Obligations.FormatterLaw : Prop :=
  ∀ (t : List Byte) (w n : Nat),
    (format (split t) w n).length = n ∧ (∀ r ∈ format (split t) w n, r.length = w) ∧
    (∀ i < min (split t).length n, (format (split t) w n)[i]? = ((split t)[i]?).map fun l => row l w) ∧
    (∀ i < n, min (split t).length n ≤ i → (format (split t) w n)[i]? = some (List.replicate w 0x20#8))

/-! Timing -/

/-- The lower bounds in units of T_DELAY: three a nibble, six a byte, 18 an INIT, `6 * N * (W + 1)` a RENDER
(70_reset_and_hazards.md R171). -/
def Obligations.DurationLowerBounds : Prop :=
  (∀ (c : Cfg) (m : Mode) (n : Nibble), minDuration c (nibbleEvents c m n) = 3 * c.tDelay) ∧
  (∀ (c : Cfg) (x : Transfer), minDuration c (transferEvents c x) = 6 * c.tDelay) ∧
  (∀ s : State,
    (s.job = .xfer → minDuration s.cfg (programEvents s.cfg (byteProgram s)) = 6 * s.cfg.tDelay) ∧
    (s.job = .init → minDuration s.cfg (programEvents s.cfg (byteProgram s)) = 18 * s.cfg.tDelay) ∧
    (s.job = .render →
      minDuration s.cfg (programEvents s.cfg (byteProgram s)) = 6 * s.cfg.n * (s.cfg.w + 1) * s.cfg.tDelay))

/-! The whole machine -/

/-- The trace is append-only, and a step appends at most one event (10_state.md R13). -/
def Obligations.TraceGrowsByAtMostOneEvent : Prop :=
  ∀ s t : State, step s = .next t → t.trace = s.trace ∨ ∃ e, t.trace = s.trace ++ [e]

/-- During a job nothing but the job's own next event is performed, unless reset is asserted (40_transfer.md R94). -/
def Obligations.NothingInterruptsAJob : Prop :=
  ∀ s t : State, s.rst = false → s.running = true → (∀ rest, s.host ≠ .assertReset :: rest) → step s = .next t →
    (t.trace = s.trace ∧ t.seq = s.seq ∧ t.out = s.out ∧ t.state = s.state) ∨
    ∃ x, (byteProgram s)[s.seq.bidx]? = some x ∧
      t.trace = s.trace ++ [match lineOp x s.seq.nib s.seq.ustep with
        | .set l b => .set (pinOf s.cfg l) b
        | .wait => .wait]

/-- In INITIALIZING and BUSY the sequencer always has a step, and it performs one event (70_reset_and_hazards.md R173). -/
def Obligations.RunningSequencerHasAStep : Prop :=
  ∀ s : State, BlockInv s → s.rst = false → s.running = true → s.quietFor 1 = true →
    ∃ t e, step s = .next t ∧ t.trace = s.trace ++ [e]

/-- Registers fit the widths that the spec gives them: BIDX, TEXTLEN and the addresses of TEXTBUF (10_state.md R20, R29,
R36). -/
def Obligations.RegistersFitTheirWidths : Prop :=
  ∀ s : State, BlockInv s →
    s.seq.bidx < 2 ^ bitWidth (s.limits.nMax * (s.limits.wMax + 1)) ∧ s.textLen < 2 ^ bitWidth s.cfg.textMax ∧
    ∀ c ∈ s.textBuf, c.1 < 2 ^ bitWidth s.cfg.textMax

/-- In a state that meets the block's invariant no step is refused. -/
def Obligations.NoStepIsRefused : Prop :=
  ∀ (s : State) (r : Refusal), BlockInv s → step s ≠ .refused r

/-- Every step keeps the block's invariant. -/
def Obligations.StepKeepsBlockInv : Prop :=
  ∀ s t : State, BlockInv s → step s = .next t → BlockInv t

/-- Every step keeps both memories in canonical form. -/
def Obligations.StepKeepsMemoryInv : Prop :=
  ∀ s t : State, MemoryInv s → step s = .next t → MemoryInv t

/-- The strobe law: every step keeps E high exactly between the rise and the fall of the nibble in flight
(40_transfer.md R103). -/
def Obligations.StepKeepsStrobeLaw : Prop :=
  ∀ s t : State, StrobeInv s → step s = .next t → StrobeInv t

/-- The setup and hold law: every step keeps RS and the data lines at the levels of the nibble in flight, from their
setting to the nibble's end (40_transfer.md R104). -/
def Obligations.StepKeepsSetupAndHold : Prop :=
  ∀ s t : State, LinesInv s → step s = .next t → LinesInv t

/-- Every step keeps the latches, the driving of the pins and the trace in agreement (10_state.md R21, R22). -/
def Obligations.StepKeepsTraceInv : Prop :=
  ∀ s t : State, BlockInv s → TraceInv s → step s = .next t → TraceInv t

/-- The state right after reset meets every invariant. -/
def Obligations.ResetMeetsInvariants : Prop :=
  BlockInv State.reset ∧ MemoryInv State.reset ∧ StrobeInv State.reset ∧ LinesInv State.reset ∧ TraceInv State.reset
end

