-- ==== Sys2Proof/Laws/Memory.lean ====
section
/-! SUPPORT. What the memory operations do: reading after a write, and that every operation keeps the canonical form. -/

namespace Sys2Proof.Machine

/-- A write changes the byte at its own address and no other. -/
theorem Mem.read_write (m : Mem) (a : Nat) (b : Byte) (c : Nat) :
    Mem.read (Mem.write m a b) c = if c = a then some b else Mem.read m c := by
  induction m with
  | nil => simp [Mem.write, Mem.read, eq_comm]
  | cons x rest ih =>
    obtain ⟨k, d⟩ := x
    simp only [Mem.write]
    by_cases h1 : a < k
    · simp only [h1, if_true, Mem.read, eq_comm (a := a)]
    · by_cases h2 : a = k
      · simp only [h2, Nat.lt_irrefl, if_false, if_true, Mem.read, eq_comm (a := k)]
        split <;> rfl
      · simp only [h1, h2, if_false, Mem.read, ih]
        by_cases h3 : k = c
        · simp [h3, show ¬ c = a by omega]
        · simp [h3]

/-- The addresses of a memory after a write are the written one and those it had. -/
theorem Mem.mem_write {m : Mem} {a : Nat} {b : Byte} {x : Host.Cell} (h : x ∈ Mem.write m a b) :
    x = (a, b) ∨ x ∈ m := by
  induction m with
  | nil => simp_all [Mem.write]
  | cons y rest ih =>
    obtain ⟨k, d⟩ := y
    simp only [Mem.write] at h
    split at h
    · simp_all
    · split at h
      · rcases List.mem_cons.mp h with h | h
        · exact .inl h
        · exact .inr (List.mem_cons_of_mem _ h)
      · simp only [List.mem_cons] at h ⊢
        rcases h with h | h
        · exact .inr (.inl h)
        · rcases ih h with h | h
          · exact .inl h
          · exact .inr (.inr h)

theorem Mem.risesFrom_write {m : Mem} {n a : Nat} (b : Byte) (h : Mem.risesFrom n m = true) (ha : n ≤ a) :
    Mem.risesFrom n (Mem.write m a b) = true := by
  induction m generalizing n with
  | nil => simp [Mem.write, Mem.risesFrom, ha]
  | cons x rest ih =>
    obtain ⟨k, d⟩ := x
    simp only [Mem.risesFrom, Bool.and_eq_true, decide_eq_true_eq] at h
    simp only [Mem.write]
    split
    · simp only [Mem.risesFrom, Bool.and_eq_true, decide_eq_true_eq]
      exact ⟨ha, by omega, h.2⟩
    · split
      · subst_vars
        simp only [Mem.risesFrom, Bool.and_eq_true, decide_eq_true_eq]
        exact h
      · simp only [Mem.risesFrom, Bool.and_eq_true, decide_eq_true_eq]
        exact ⟨h.1, ih h.2 (by omega)⟩

/-- A write keeps the canonical form. -/
theorem Mem.wf_write {m : Mem} (a : Nat) (b : Byte) (h : Mem.wf m = true) : Mem.wf (Mem.write m a b) = true :=
  Mem.risesFrom_write b h (Nat.zero_le a)

theorem Mem.risesFrom_ofBytes (a : Nat) (l : List Byte) : Mem.risesFrom a (Mem.ofBytes a l) = true := by
  induction l generalizing a with
  | nil => rfl
  | cons b bs ih => simp [Mem.ofBytes, Mem.risesFrom, ih]

/-- The memory the rasterize step writes is in canonical form. -/
theorem Mem.wf_storeRows (rows : List (List Byte)) : Mem.wf (storeRows rows) = true :=
  Mem.risesFrom_ofBytes 0 _

/-- Bytes stored from address `a` on are read back in their order, and nothing is listed elsewhere. -/
theorem Mem.read_ofBytes (l : List Byte) (a c : Nat) :
    Mem.read (Mem.ofBytes a l) c = if a ≤ c then l[c - a]? else none := by
  induction l generalizing a with
  | nil => simp [Mem.ofBytes, Mem.read]
  | cons b bs ih =>
    simp only [Mem.ofBytes, Mem.read, ih]
    split
    · subst_vars; simp
    · rename_i hne
      by_cases h : a + 1 ≤ c
      · have e : c - a = (c - (a + 1)) + 1 := by omega
        simp [h, e, show a ≤ c by omega]
      · simp [h, show ¬ a ≤ c by omega]

/-- The empty memory is in canonical form. -/
theorem Mem.wf_nil : Mem.wf [] = true := rfl

/-- Both memories right after reset are in canonical form. -/
theorem Mem.wf_reset : Mem.wf State.reset.textBuf = true ∧ Mem.wf State.reset.raster = true := ⟨rfl, rfl⟩

/-- A range is read exactly when every byte of it is listed, and then it is their list. -/
theorem Mem.readRange_eq_some (m : Mem) (a k : Nat) (l : List Byte) :
    Mem.readRange m a k = some l ↔ l.length = k ∧ ∀ i < k, Mem.read m (a + i) = l[i]? := by
  induction k generalizing a l with
  | zero =>
    simp only [Mem.readRange, Option.some.injEq]
    constructor
    · rintro rfl; simp
    · rintro ⟨h, -⟩; exact (List.eq_nil_of_length_eq_zero h).symm
  | succ k ih =>
    simp only [Mem.readRange]
    constructor
    · intro h
      split at h
      · rename_i b bs hb hbs
        cases h
        obtain ⟨hl, hr⟩ := (ih (a + 1) bs).mp hbs
        refine ⟨by simp [hl], fun i hi => ?_⟩
        cases i with
        | zero => simpa using hb
        | succ i => simpa [Nat.add_assoc, Nat.add_comm 1 i] using hr i (by omega)
      · cases h
    · rintro ⟨hl, hr⟩
      cases l with
      | nil => simp at hl
      | cons b bs =>
        have h0 : Mem.read m a = some b := by simpa using hr 0 (by omega)
        have h1 : Mem.readRange m (a + 1) k = some bs :=
          (ih (a + 1) bs).mpr ⟨by simpa using hl, fun i hi => by
            simpa [Nat.add_assoc, Nat.add_comm 1 i] using hr (i + 1) (by omega)⟩
        simp [h0, h1]

/-- A range is not read exactly when some byte of it is not listed. -/
theorem Mem.readRange_eq_none (m : Mem) (a k : Nat) :
    Mem.readRange m a k = none ↔ ∃ i < k, Mem.read m (a + i) = none := by
  induction k generalizing a with
  | zero => simp [Mem.readRange]
  | succ k ih =>
    simp only [Mem.readRange]
    constructor
    · intro h
      split at h
      · cases h
      · rename_i hn
        cases hb : Mem.read m a with
        | none => exact ⟨0, by omega, by simpa using hb⟩
        | some b =>
          cases hbs : Mem.readRange m (a + 1) k with
          | some bs => exact absurd hbs (hn b bs hb)
          | none =>
            obtain ⟨i, hi, hr⟩ := (ih (a + 1)).mp hbs
            exact ⟨i + 1, by omega, by simpa [Nat.add_assoc, Nat.add_comm 1 i] using hr⟩
    · rintro ⟨i, hi, hr⟩
      cases i with
      | zero => simp at hr; simp [hr]
      | succ i =>
        have : Mem.readRange m (a + 1) k = none :=
          (ih (a + 1)).mpr ⟨i, by omega, by simpa [Nat.add_assoc, Nat.add_comm 1 i] using hr⟩
        split <;> simp_all

end Sys2Proof.Machine
end

