-- ==== Sys2Proof/Laws/Layout.lean ====
section
/-! SUPPORT. What the rasterizer stores and where: rows of equal length, found by line and column. -/

namespace Sys2Proof.Machine

@[simp] theorem length_formatRow (p : List (List Byte)) (w i : Nat) : (formatRow p w i).length = w := by
  unfold formatRow
  split
  · simp only [row, List.length_append, List.length_take, List.length_replicate]; omega
  · simp [blankRow]

theorem getElem?_format (p : List (List Byte)) (w n i : Nat) :
    (format p w n)[i]? = if i < n then some (formatRow p w i) else none := by
  unfold format
  split
  · simp [*]
  · simp only [List.getElem?_map, Option.map_eq_none_iff, List.getElem?_eq_none_iff, List.length_range]; omega

/-- `N` rows of `W` bytes are `N * W` bytes. -/
theorem length_flatten_rows {α : Type} (f : Nat → List α) (w n : Nat) (h : ∀ i, (f i).length = w) :
    ((List.range n).map f).flatten.length = n * w := by
  induction n with
  | zero => simp
  | succ n ih => simp [List.range_succ, h, ih, Nat.succ_mul]

/-- In rows of equal length laid end to end, element `j` of row `r` is at `r * w + j`. -/
theorem getElem?_flatten_rows {α : Type} (f : Nat → List α) (w n r j : Nat) (h : ∀ i, (f i).length = w)
    (hr : r < n) (hj : j < w) : ((List.range n).map f).flatten[r * w + j]? = (f r)[j]? := by
  induction n with
  | zero => omega
  | succ n ih =>
    have hlen := length_flatten_rows f w n h
    rw [List.range_succ, List.map_append, List.flatten_append]
    by_cases hrn : r < n
    · have hlt : r * w + j < n * w :=
        Nat.lt_of_lt_of_le (by rw [Nat.succ_mul]; omega) (Nat.mul_le_mul_right w (Nat.succ_le_of_lt hrn))
      rw [List.getElem?_append_left (by omega), ih hrn]
    · obtain rfl : r = n := by omega
      rw [List.getElem?_append_right (by omega), hlen, Nat.add_sub_cancel_left]
      simp

/-- The raster byte of line `r`, column `j` (41_layout.md R115). -/
theorem read_storeRows (p : List (List Byte)) (w n r j : Nat) (hr : r < n) (hj : j < w) :
    Mem.read (storeRows (format p w n)) (r * w + j) = (formatRow p w r)[j]? := by
  rw [storeRows, Mem.read_ofBytes, if_pos (Nat.zero_le _), Nat.sub_zero, format,
    getElem?_flatten_rows _ w n r j (length_formatRow p w) hr hj]

/-- The raster lists the `N * W` bytes from address 0 on and no other (20_memory.md R46). -/
theorem isSome_read_storeRows (p : List (List Byte)) (w n a : Nat) :
    (Mem.read (storeRows (format p w n)) a).isSome = decide (a < n * w) := by
  have hlen := length_flatten_rows _ w n (length_formatRow p w)
  rw [storeRows, Mem.read_ofBytes, if_pos (Nat.zero_le _), Nat.sub_zero, format]
  by_cases h : a < n * w
  · simp only [h, decide_true, List.getElem?_eq_getElem (hlen.symm ▸ h), Option.isSome_some]
  · simp only [h, decide_false, Option.isSome_eq_false_iff, Option.isNone_iff_eq_none]
    exact List.getElem?_eq_none (by omega)

end Sys2Proof.Machine
end

