-- ==== Sys2Proof/Laws/State.lean ====
section
/-! SUPPORT. One lemma per field per update of the state, each true by computation, so that no later proof unfolds a
record update. -/

namespace Sys2Proof.Machine

/-! emitSet -/

@[simp] theorem emitSet_limits (l : Line) (b : Bool) (s : State) :
    (emitSet l b s).limits = s.limits := rfl
@[simp] theorem emitSet_platRejects (l : Line) (b : Bool) (s : State) :
    (emitSet l b s).platRejects = s.platRejects := rfl
@[simp] theorem emitSet_cfg (l : Line) (b : Bool) (s : State) :
    (emitSet l b s).cfg = s.cfg := rfl
@[simp] theorem emitSet_out (l : Line) (b : Bool) (s : State) :
    (emitSet l b s).out = setLatch s.out l b := rfl
@[simp] theorem emitSet_state (l : Line) (b : Bool) (s : State) :
    (emitSet l b s).state = s.state := rfl
@[simp] theorem emitSet_initDone (l : Line) (b : Bool) (s : State) :
    (emitSet l b s).initDone = s.initDone := rfl
@[simp] theorem emitSet_job (l : Line) (b : Bool) (s : State) :
    (emitSet l b s).job = s.job := rfl
@[simp] theorem emitSet_curMode (l : Line) (b : Bool) (s : State) :
    (emitSet l b s).curMode = s.curMode := rfl
@[simp] theorem emitSet_curVal (l : Line) (b : Bool) (s : State) :
    (emitSet l b s).curVal = s.curVal := rfl
@[simp] theorem emitSet_seq (l : Line) (b : Bool) (s : State) :
    (emitSet l b s).seq = s.seq := rfl
@[simp] theorem emitSet_fault (l : Line) (b : Bool) (s : State) :
    (emitSet l b s).fault = s.fault := rfl
@[simp] theorem emitSet_errCode (l : Line) (b : Bool) (s : State) :
    (emitSet l b s).errCode = s.errCode := rfl
@[simp] theorem emitSet_textLen (l : Line) (b : Bool) (s : State) :
    (emitSet l b s).textLen = s.textLen := rfl
@[simp] theorem emitSet_textBuf (l : Line) (b : Bool) (s : State) :
    (emitSet l b s).textBuf = s.textBuf := rfl
@[simp] theorem emitSet_raster (l : Line) (b : Bool) (s : State) :
    (emitSet l b s).raster = s.raster := rfl
@[simp] theorem emitSet_driven (l : Line) (b : Bool) (s : State) :
    (emitSet l b s).driven = s.driven := rfl
@[simp] theorem emitSet_trace (l : Line) (b : Bool) (s : State) :
    (emitSet l b s).trace = s.trace ++ [.set (pinOf s.cfg l) b] := rfl
@[simp] theorem emitSet_rst (l : Line) (b : Bool) (s : State) :
    (emitSet l b s).rst = s.rst := rfl
@[simp] theorem emitSet_req (l : Line) (b : Bool) (s : State) :
    (emitSet l b s).req = s.req := rfl
@[simp] theorem emitSet_host (l : Line) (b : Bool) (s : State) :
    (emitSet l b s).host = s.host := rfl

/-! emitWait -/

@[simp] theorem emitWait_limits (s : State) :
    (emitWait s).limits = s.limits := rfl
@[simp] theorem emitWait_platRejects (s : State) :
    (emitWait s).platRejects = s.platRejects := rfl
@[simp] theorem emitWait_cfg (s : State) :
    (emitWait s).cfg = s.cfg := rfl
@[simp] theorem emitWait_out (s : State) :
    (emitWait s).out = s.out := rfl
@[simp] theorem emitWait_state (s : State) :
    (emitWait s).state = s.state := rfl
@[simp] theorem emitWait_initDone (s : State) :
    (emitWait s).initDone = s.initDone := rfl
@[simp] theorem emitWait_job (s : State) :
    (emitWait s).job = s.job := rfl
@[simp] theorem emitWait_curMode (s : State) :
    (emitWait s).curMode = s.curMode := rfl
@[simp] theorem emitWait_curVal (s : State) :
    (emitWait s).curVal = s.curVal := rfl
@[simp] theorem emitWait_seq (s : State) :
    (emitWait s).seq = s.seq := rfl
@[simp] theorem emitWait_fault (s : State) :
    (emitWait s).fault = s.fault := rfl
@[simp] theorem emitWait_errCode (s : State) :
    (emitWait s).errCode = s.errCode := rfl
@[simp] theorem emitWait_textLen (s : State) :
    (emitWait s).textLen = s.textLen := rfl
@[simp] theorem emitWait_textBuf (s : State) :
    (emitWait s).textBuf = s.textBuf := rfl
@[simp] theorem emitWait_raster (s : State) :
    (emitWait s).raster = s.raster := rfl
@[simp] theorem emitWait_driven (s : State) :
    (emitWait s).driven = s.driven := rfl
@[simp] theorem emitWait_trace (s : State) :
    (emitWait s).trace = s.trace ++ [.wait] := rfl
@[simp] theorem emitWait_rst (s : State) :
    (emitWait s).rst = s.rst := rfl
@[simp] theorem emitWait_req (s : State) :
    (emitWait s).req = s.req := rfl
@[simp] theorem emitWait_host (s : State) :
    (emitWait s).host = s.host := rfl

/-! emitConfigure -/

@[simp] theorem emitConfigure_limits (s : State) :
    (emitConfigure s).limits = s.limits := rfl
@[simp] theorem emitConfigure_platRejects (s : State) :
    (emitConfigure s).platRejects = s.platRejects := rfl
@[simp] theorem emitConfigure_cfg (s : State) :
    (emitConfigure s).cfg = s.cfg := rfl
@[simp] theorem emitConfigure_out (s : State) :
    (emitConfigure s).out = s.out := rfl
@[simp] theorem emitConfigure_state (s : State) :
    (emitConfigure s).state = s.state := rfl
@[simp] theorem emitConfigure_initDone (s : State) :
    (emitConfigure s).initDone = s.initDone := rfl
@[simp] theorem emitConfigure_job (s : State) :
    (emitConfigure s).job = s.job := rfl
@[simp] theorem emitConfigure_curMode (s : State) :
    (emitConfigure s).curMode = s.curMode := rfl
@[simp] theorem emitConfigure_curVal (s : State) :
    (emitConfigure s).curVal = s.curVal := rfl
@[simp] theorem emitConfigure_seq (s : State) :
    (emitConfigure s).seq = s.seq := rfl
@[simp] theorem emitConfigure_fault (s : State) :
    (emitConfigure s).fault = s.fault := rfl
@[simp] theorem emitConfigure_errCode (s : State) :
    (emitConfigure s).errCode = s.errCode := rfl
@[simp] theorem emitConfigure_textLen (s : State) :
    (emitConfigure s).textLen = s.textLen := rfl
@[simp] theorem emitConfigure_textBuf (s : State) :
    (emitConfigure s).textBuf = s.textBuf := rfl
@[simp] theorem emitConfigure_raster (s : State) :
    (emitConfigure s).raster = s.raster := rfl
@[simp] theorem emitConfigure_driven (s : State) :
    (emitConfigure s).driven = true := rfl
@[simp] theorem emitConfigure_trace (s : State) :
    (emitConfigure s).trace = s.trace ++ [.configure (pinSet s.cfg)] := rfl
@[simp] theorem emitConfigure_rst (s : State) :
    (emitConfigure s).rst = s.rst := rfl
@[simp] theorem emitConfigure_req (s : State) :
    (emitConfigure s).req = s.req := rfl
@[simp] theorem emitConfigure_host (s : State) :
    (emitConfigure s).host = s.host := rfl

/-! startJob -/

@[simp] theorem startJob_limits (b : BlockState) (j : Job) (s : State) :
    (startJob b j s).limits = s.limits := rfl
@[simp] theorem startJob_platRejects (b : BlockState) (j : Job) (s : State) :
    (startJob b j s).platRejects = s.platRejects := rfl
@[simp] theorem startJob_cfg (b : BlockState) (j : Job) (s : State) :
    (startJob b j s).cfg = s.cfg := rfl
@[simp] theorem startJob_out (b : BlockState) (j : Job) (s : State) :
    (startJob b j s).out = s.out := rfl
@[simp] theorem startJob_state (b : BlockState) (j : Job) (s : State) :
    (startJob b j s).state = b := rfl
@[simp] theorem startJob_initDone (b : BlockState) (j : Job) (s : State) :
    (startJob b j s).initDone = s.initDone := rfl
@[simp] theorem startJob_job (b : BlockState) (j : Job) (s : State) :
    (startJob b j s).job = j := rfl
@[simp] theorem startJob_curMode (b : BlockState) (j : Job) (s : State) :
    (startJob b j s).curMode = s.curMode := rfl
@[simp] theorem startJob_curVal (b : BlockState) (j : Job) (s : State) :
    (startJob b j s).curVal = s.curVal := rfl
@[simp] theorem startJob_seq (b : BlockState) (j : Job) (s : State) :
    (startJob b j s).seq = Seq.start := rfl
@[simp] theorem startJob_fault (b : BlockState) (j : Job) (s : State) :
    (startJob b j s).fault = s.fault := rfl
@[simp] theorem startJob_errCode (b : BlockState) (j : Job) (s : State) :
    (startJob b j s).errCode = s.errCode := rfl
@[simp] theorem startJob_textLen (b : BlockState) (j : Job) (s : State) :
    (startJob b j s).textLen = s.textLen := rfl
@[simp] theorem startJob_textBuf (b : BlockState) (j : Job) (s : State) :
    (startJob b j s).textBuf = s.textBuf := rfl
@[simp] theorem startJob_raster (b : BlockState) (j : Job) (s : State) :
    (startJob b j s).raster = s.raster := rfl
@[simp] theorem startJob_driven (b : BlockState) (j : Job) (s : State) :
    (startJob b j s).driven = s.driven := rfl
@[simp] theorem startJob_trace (b : BlockState) (j : Job) (s : State) :
    (startJob b j s).trace = s.trace := rfl
@[simp] theorem startJob_rst (b : BlockState) (j : Job) (s : State) :
    (startJob b j s).rst = s.rst := rfl
@[simp] theorem startJob_req (b : BlockState) (j : Job) (s : State) :
    (startJob b j s).req = s.req := rfl
@[simp] theorem startJob_host (b : BlockState) (j : Job) (s : State) :
    (startJob b j s).host = s.host := rfl

/-! rasterize -/

@[simp] theorem rasterize_limits (t : List Byte) (s : State) :
    (rasterize t s).limits = s.limits := rfl
@[simp] theorem rasterize_platRejects (t : List Byte) (s : State) :
    (rasterize t s).platRejects = s.platRejects := rfl
@[simp] theorem rasterize_cfg (t : List Byte) (s : State) :
    (rasterize t s).cfg = s.cfg := rfl
@[simp] theorem rasterize_out (t : List Byte) (s : State) :
    (rasterize t s).out = s.out := rfl
@[simp] theorem rasterize_state (t : List Byte) (s : State) :
    (rasterize t s).state = s.state := rfl
@[simp] theorem rasterize_initDone (t : List Byte) (s : State) :
    (rasterize t s).initDone = s.initDone := rfl
@[simp] theorem rasterize_job (t : List Byte) (s : State) :
    (rasterize t s).job = s.job := rfl
@[simp] theorem rasterize_curMode (t : List Byte) (s : State) :
    (rasterize t s).curMode = s.curMode := rfl
@[simp] theorem rasterize_curVal (t : List Byte) (s : State) :
    (rasterize t s).curVal = s.curVal := rfl
@[simp] theorem rasterize_seq (t : List Byte) (s : State) :
    (rasterize t s).seq = s.seq := rfl
@[simp] theorem rasterize_fault (t : List Byte) (s : State) :
    (rasterize t s).fault = s.fault := rfl
@[simp] theorem rasterize_errCode (t : List Byte) (s : State) :
    (rasterize t s).errCode = s.errCode := rfl
@[simp] theorem rasterize_textLen (t : List Byte) (s : State) :
    (rasterize t s).textLen = s.textLen := rfl
@[simp] theorem rasterize_textBuf (t : List Byte) (s : State) :
    (rasterize t s).textBuf = s.textBuf := rfl
@[simp] theorem rasterize_raster (t : List Byte) (s : State) :
    (rasterize t s).raster = storeRows (format (split t) s.cfg.w s.cfg.n) := rfl
@[simp] theorem rasterize_driven (t : List Byte) (s : State) :
    (rasterize t s).driven = s.driven := rfl
@[simp] theorem rasterize_trace (t : List Byte) (s : State) :
    (rasterize t s).trace = s.trace := rfl
@[simp] theorem rasterize_rst (t : List Byte) (s : State) :
    (rasterize t s).rst = s.rst := rfl
@[simp] theorem rasterize_req (t : List Byte) (s : State) :
    (rasterize t s).req = s.req := rfl
@[simp] theorem rasterize_host (t : List Byte) (s : State) :
    (rasterize t s).host = s.host := rfl

/-! resetRegisters -/

@[simp] theorem resetRegisters_limits (s : State) :
    (resetRegisters s).limits = s.limits := rfl
@[simp] theorem resetRegisters_platRejects (s : State) :
    (resetRegisters s).platRejects = s.platRejects := rfl
@[simp] theorem resetRegisters_cfg (s : State) :
    (resetRegisters s).cfg = s.cfg := rfl
@[simp] theorem resetRegisters_out (s : State) :
    (resetRegisters s).out = Latches.zero := rfl
@[simp] theorem resetRegisters_state (s : State) :
    (resetRegisters s).state = .config := rfl
@[simp] theorem resetRegisters_initDone (s : State) :
    (resetRegisters s).initDone = false := rfl
@[simp] theorem resetRegisters_job (s : State) :
    (resetRegisters s).job = .init := rfl
@[simp] theorem resetRegisters_curMode (s : State) :
    (resetRegisters s).curMode = .command := rfl
@[simp] theorem resetRegisters_curVal (s : State) :
    (resetRegisters s).curVal = 0x00#8 := rfl
@[simp] theorem resetRegisters_seq (s : State) :
    (resetRegisters s).seq = Seq.start := rfl
@[simp] theorem resetRegisters_fault (s : State) :
    (resetRegisters s).fault = false := rfl
@[simp] theorem resetRegisters_errCode (s : State) :
    (resetRegisters s).errCode = .noFault := rfl
@[simp] theorem resetRegisters_textLen (s : State) :
    (resetRegisters s).textLen = 0 := rfl
@[simp] theorem resetRegisters_textBuf (s : State) :
    (resetRegisters s).textBuf = [] := rfl
@[simp] theorem resetRegisters_raster (s : State) :
    (resetRegisters s).raster = [] := rfl
@[simp] theorem resetRegisters_driven (s : State) :
    (resetRegisters s).driven = false := rfl
@[simp] theorem resetRegisters_trace (s : State) :
    (resetRegisters s).trace = s.trace := rfl
@[simp] theorem resetRegisters_rst (s : State) :
    (resetRegisters s).rst = s.rst := rfl
@[simp] theorem resetRegisters_req (s : State) :
    (resetRegisters s).req = s.req := rfl
@[simp] theorem resetRegisters_host (s : State) :
    (resetRegisters s).host = s.host := rfl

/-! endJob -/

@[simp] theorem endJob_limits (s : State) :
    (endJob s).limits = s.limits := rfl
@[simp] theorem endJob_platRejects (s : State) :
    (endJob s).platRejects = s.platRejects := rfl
@[simp] theorem endJob_cfg (s : State) :
    (endJob s).cfg = s.cfg := rfl
@[simp] theorem endJob_out (s : State) :
    (endJob s).out = s.out := rfl
@[simp] theorem endJob_state (s : State) :
    (endJob s).state = if s.fault then .fault else .ready := rfl
@[simp] theorem endJob_initDone (s : State) :
    (endJob s).initDone = (s.initDone || decide (s.state = .initializing)) := rfl
@[simp] theorem endJob_job (s : State) :
    (endJob s).job = .none := rfl
@[simp] theorem endJob_curMode (s : State) :
    (endJob s).curMode = s.curMode := rfl
@[simp] theorem endJob_curVal (s : State) :
    (endJob s).curVal = s.curVal := rfl
@[simp] theorem endJob_seq (s : State) :
    (endJob s).seq = s.seq := rfl
@[simp] theorem endJob_fault (s : State) :
    (endJob s).fault = s.fault := rfl
@[simp] theorem endJob_errCode (s : State) :
    (endJob s).errCode = s.errCode := rfl
@[simp] theorem endJob_textLen (s : State) :
    (endJob s).textLen = s.textLen := rfl
@[simp] theorem endJob_textBuf (s : State) :
    (endJob s).textBuf = s.textBuf := rfl
@[simp] theorem endJob_raster (s : State) :
    (endJob s).raster = s.raster := rfl
@[simp] theorem endJob_driven (s : State) :
    (endJob s).driven = s.driven := rfl
@[simp] theorem endJob_trace (s : State) :
    (endJob s).trace = s.trace := rfl
@[simp] theorem endJob_rst (s : State) :
    (endJob s).rst = s.rst := rfl
@[simp] theorem endJob_req (s : State) :
    (endJob s).req = s.req := rfl
@[simp] theorem endJob_host (s : State) :
    (endJob s).host = s.host := rfl

/-! The latches of the lines. -/

@[simp] theorem latch_setLatch_same (o : Latches) (l : Line) (b : Bool) : latch (setLatch o l b) l = b := by
  cases l <;> rfl

theorem latch_setLatch_other (o : Latches) {l k : Line} (b : Bool) (h : k ≠ l) :
    latch (setLatch o l b) k = latch o k := by
  cases l <;> cases k <;> first | rfl | exact absurd rfl h

@[simp] theorem latch_zero (l : Line) : latch Latches.zero l = false := by cases l <;> rfl

end Sys2Proof.Machine
end

