-- ==== Sys2Proof/Laws/Ops.lean ====
section
/-! SUPPORT. One lemma for each shared operation that says everything it can do. -/

namespace Sys2Proof.Machine

/-- `w(x)` bits are enough for `x` (10_state.md R20). -/
theorem lt_two_pow_bitWidth (x : Nat) : x < 2 ^ bitWidth x := by
  unfold bitWidth
  split
  · subst_vars; decide
  · exact Nat.lt_log2_self

/-- `w(x)` is the least number of bits that is enough for `x` (10_state.md R20). -/
theorem bitWidth_le {x k : Nat} (h : x < 2 ^ k) : bitWidth x ≤ k := by
  unfold bitWidth
  split
  · exact Nat.zero_le k
  · exact (Nat.log2_lt ‹_›).mpr h

/-- The text port carries every number of its width as it is (30_encoding.md R73). -/
theorem textPort_of_lt {c : Cfg} {n : Nat} (h : n < 2 ^ bitWidth c.textMax) : textPort c n = n :=
  Nat.mod_eq_of_lt h

/-- In particular every number up to TEXT_MAX. -/
theorem textPort_of_le {c : Cfg} {n : Nat} (h : n ≤ c.textMax) : textPort c n = n :=
  textPort_of_lt (Nat.lt_of_le_of_lt h (lt_two_pow_bitWidth _))

/-- Fault entry as one update (60_exceptions.md R136). -/
theorem raiseFault_eq (c : ErrCode) (s : State) :
    raiseFault c s =
      { s with
        fault := true
        errCode := if s.fault then s.errCode else c
        state := if s.state = .config ∨ s.state = .ready then .fault else s.state
        job := if s.state = .config ∨ s.state = .ready then .none else s.job } := by
  unfold raiseFault
  rcases hf : s.fault <;> rcases hs : s.state <;> simp <;> (cases s; simp_all)

/-- During a job a fault changes the two fault registers and nothing else (60_exceptions.md R137). -/
theorem raiseFault_in_job (c : ErrCode) {s : State} (h : s.statusBusy = true) :
    raiseFault c s = { s with fault := true, errCode := if s.fault then s.errCode else c } := by
  have hs : s.state = .initializing ∨ s.state = .busy := by simpa [State.statusBusy] using h
  have hn : ¬ (s.state = .config ∨ s.state = .ready) := by rcases hs with hs | hs <;> simp [hs]
  rw [raiseFault_eq, if_neg hn, if_neg hn]

/-- An acceptance that answers a next state either found the block not READY and did nothing, or started. -/
theorem accept_cases {s t : State} {f : State → Host.Outcome State Fault Refusal} (h : accept s f = .next t) :
    (s.state ≠ .ready ∧ t = s) ∨ (s.state = .ready ∧ f s = .next t) := by
  unfold accept at h
  split at h
  · exact .inr ⟨by simpa [State.statusReady] using ‹s.statusReady = true›, h⟩
  · refine .inl ⟨by simpa [State.statusReady] using ‹¬ s.statusReady = true›, ?_⟩
    cases h; rfl

/-- An acceptance in READY starts. -/
theorem accept_ready {s : State} (f : State → Host.Outcome State Fault Refusal) (h : s.state = .ready) :
    accept s f = f s := by
  simp [accept, State.statusReady, h]

/-- An acceptance in another state does nothing (10_state.md R39). -/
theorem accept_not_ready {s : State} (f : State → Host.Outcome State Fault Refusal) (h : s.state ≠ .ready) :
    accept s f = .next s := by
  simp [accept, State.statusReady, h]

/-- Everything the acceptance of a request can do when it answers a next state. -/
theorem exec_cases {i : Instr} {s t : State} (h : exec i s = .next t) :
    (s.state ≠ .ready ∧ t = s) ∨
    (s.state = .ready ∧
      ((i = .init ∧ t = startJob .busy .init s) ∨
       (∃ m v, i = .xfer m v ∧ t = startJob .busy .xfer { s with curMode := m, curVal := v }) ∨
       (∃ l, i = .render ∧ Mem.readRange s.textBuf 0 s.textLen = some l ∧
          t = startJob .busy .render (rasterize l s)))) := by
  cases i with
  | init =>
    simp only [exec, execInit] at h
    rcases accept_cases h with h | ⟨hr, h⟩
    · exact .inl h
    · cases h; exact .inr ⟨hr, .inl ⟨rfl, rfl⟩⟩
  | xfer m v =>
    simp only [exec, execXfer] at h
    rcases accept_cases h with h | ⟨hr, h⟩
    · exact .inl h
    · cases h; exact .inr ⟨hr, .inr (.inl ⟨m, v, rfl, rfl⟩)⟩
  | render =>
    simp only [exec, execRender] at h
    rcases accept_cases h with h | ⟨hr, h⟩
    · exact .inl h
    · split at h
      · rename_i l hl
        cases h; exact .inr ⟨hr, .inr (.inr ⟨l, rfl, hl, rfl⟩)⟩
      · cases h

/-- A text byte write either is in range and writes, or raises TEXT_RANGE (20_memory.md R47). -/
theorem textWrite_cases (a : Nat) (b : Byte) (s : State) :
    (a < s.cfg.textMax ∧ textWrite a b s = { s with textBuf := Mem.write s.textBuf a b }) ∨
    (s.cfg.textMax ≤ a ∧ textWrite a b s = raiseFault .textRange s) := by
  unfold textWrite
  split
  · exact .inr ⟨‹_›, rfl⟩
  · exact .inl ⟨by omega, rfl⟩

/-- A length write either is in range and writes, or raises TEXT_RANGE (20_memory.md R48). -/
theorem lengthWrite_cases (n : Nat) (s : State) :
    (n ≤ s.cfg.textMax ∧ lengthWrite n s = { s with textLen := n }) ∨
    (s.cfg.textMax < n ∧ lengthWrite n s = raiseFault .textRange s) := by
  unfold lengthWrite
  split
  · exact .inr ⟨‹_›, rfl⟩
  · exact .inl ⟨by omega, rfl⟩

/-- The byte write of a host cycle: none, or one in range, or TEXT_RANGE. -/
theorem applyText_cases (c : HostCycle) (s : State) :
    (c.text = none ∧ applyText c s = s) ∨
    (∃ a b, c.text = some (a, b) ∧ textPort s.cfg a < s.cfg.textMax ∧
      applyText c s = { s with textBuf := Mem.write s.textBuf (textPort s.cfg a) b }) ∨
    (∃ a b, c.text = some (a, b) ∧ s.cfg.textMax ≤ textPort s.cfg a ∧ applyText c s = raiseFault .textRange s) := by
  unfold applyText
  split
  · rename_i a b h
    rcases textWrite_cases (textPort s.cfg a) b s with ⟨hl, e⟩ | ⟨hl, e⟩
    · exact .inr (.inl ⟨a, b, h, hl, e⟩)
    · exact .inr (.inr ⟨a, b, h, hl, e⟩)
  · exact .inl ⟨‹_›, rfl⟩

/-- The length write of a host cycle: none, or one in range, or TEXT_RANGE. -/
theorem applyLength_cases (c : HostCycle) (s : State) :
    (c.len = none ∧ applyLength c s = s) ∨
    (∃ n, c.len = some n ∧ textPort s.cfg n ≤ s.cfg.textMax ∧
      applyLength c s = { s with textLen := textPort s.cfg n }) ∨
    (∃ n, c.len = some n ∧ s.cfg.textMax < textPort s.cfg n ∧ applyLength c s = raiseFault .textRange s) := by
  unfold applyLength
  split
  · rename_i n h
    rcases lengthWrite_cases (textPort s.cfg n) s with ⟨hl, e⟩ | ⟨hl, e⟩
    · exact .inr (.inl ⟨n, h, hl, e⟩)
    · exact .inr (.inr ⟨n, h, hl, e⟩)
  · exact .inl ⟨‹_›, rfl⟩

/-- Performing a micro-step appends its one event and changes no register but a latch. -/
theorem perform_eq (o : LineOp) (s : State) :
    perform o s =
      { s with
        trace := s.trace ++ [match o with
          | .set l b => .set (pinOf s.cfg l) b
          | .wait => .wait]
        out := match o with
          | .set l b => setLatch s.out l b
          | .wait => s.out } := by
  cases o <;> rfl

/-- The byte program depends on these fields alone (20_memory.md R62). -/
theorem byteProgram_congr {s t : State} (hj : t.job = s.job) (hm : t.curMode = s.curMode) (hv : t.curVal = s.curVal)
    (hc : t.cfg = s.cfg) (hr : t.raster = s.raster) : byteProgram t = byteProgram s := by
  simp only [byteProgram, renderProgram, lineProgram, State.rasterByte, hj, hm, hv, hc, hr]

/-- Performing a micro-step does not change the byte program. -/
@[simp] theorem byteProgram_perform (o : LineOp) (s : State) : byteProgram (perform o s) = byteProgram s := by
  rw [perform_eq]; exact byteProgram_congr rfl rfl rfl rfl rfl

end Sys2Proof.Machine
end

