-- ==== Sys2Proof/Laws/Quiet.lean ====
section
/-! SUPPORT. A host that changes no line: its turns one after the other, and that each of them is the sequencer's. -/

namespace Sys2Proof.Machine

@[simp] theorem hostAfter_zero (hs : List HostAction) : hostAfter 0 hs = hs := by
  cases hs <;> rfl

/-- Quiet turns can be counted in two parts. -/
theorem quietHost_add (f r : Bool) (k l : Nat) (hs : List HostAction) :
    quietHost f r (k + l) hs = (quietHost f r k hs && quietHost f r l (hostAfter k hs)) := by
  induction k generalizing hs with
  | zero => simp [quietHost]
  | succ k ih =>
    rw [Nat.add_right_comm]
    cases hs with
    | nil => cases l <;> simp [quietHost, hostAfter]
    | cons a rest =>
      cases a <;> simp only [quietHost, hostAfter, ih] <;> cases l <;> simp [quietHost]

theorem hostAfter_add (k l : Nat) (hs : List HostAction) : hostAfter (k + l) hs = hostAfter l (hostAfter k hs) := by
  induction k generalizing hs with
  | zero => simp
  | succ k ih =>
    rw [Nat.add_right_comm]
    cases hs with
    | nil => cases l <;> rfl
    | cons a rest =>
      cases a <;> simp only [hostAfter, ih]

/-- Fewer turns of a quiet host are quiet. -/
theorem quietHost_mono {f r : Bool} {k l : Nat} {hs : List HostAction} (h : quietHost f r l hs = true) (hkl : k ≤ l) :
    quietHost f r k hs = true := by
  obtain ⟨d, rfl⟩ := Nat.exists_eq_add_of_le hkl
  rw [quietHost_add, Bool.and_eq_true] at h
  exact h.1

/-- Outside READY a quiet host's turn is the sequencer's step (40_transfer.md R98). -/
theorem step_of_quiet {s : State} {k : Nat} (hr : s.rst = false) (hs : s.state ≠ .ready)
    (hq : s.quietFor (k + 1) = true) : step s = sequencerStep { s with host := hostAfter 1 s.host } := by
  have hq1 : quietHost s.fault s.req.isSome 1 s.host = true := quietHost_mono hq (by omega)
  have turn_eq : ∀ h, quietTurn { s with host := h } = sequencerStep { s with host := h } := fun h => by
    simp [quietTurn, hr, handshake, State.statusReady, hs]
  have self : ∀ h, s.host = h → quietTurn s = quietTurn { s with host := h } := by rintro _ rfl; rfl
  unfold step turn
  cases hh : s.host with
  | nil => exact (self [] hh).trans (turn_eq [])
  | cons a rest =>
    rw [hh] at hq1
    cases a with
    | pass => simpa [hostTurn, hostAfter] using turn_eq rest
    | waitReady =>
      have hf : s.fault = false := by simpa [quietHost] using hq1
      have hc : ((s.statusReady || s.fault) && !handshake s) = false := by simp [State.statusReady, hs, hf]
      simp only [hostTurn, hc, Bool.false_eq_true, if_false]
      exact (self _ hh).trans (turn_eq _)
    | awaitAccept =>
      have hn : s.req.isNone = false := by cases h : s.req <;> simp_all [quietHost]
      simp only [hostTurn, hn, Bool.false_eq_true, if_false]
      exact (self _ hh).trans (turn_eq _)
    | assertReset => simp [quietHost] at hq1
    | releaseReset c => simp [quietHost] at hq1
    | cycle c => simp [quietHost] at hq1
    | withdraw => simp [quietHost] at hq1

end Sys2Proof.Machine
end

