-- ==== Sys2Proof/Laws/Step.lean ====
section
/-! SUPPORT. What a step can do, said once (`step_transition`), and that a property which each of the block's own transitions
keeps is kept by every step (`Kept.step`). -/

namespace Sys2Proof.Machine

/-- The text-port writes of a host cycle leave `rst`, the request line and the host's script alone. -/
theorem applyWrites_frame (c : HostCycle) (s : State) :
    (applyWrites c s).rst = s.rst ∧ (applyWrites c s).req = s.req ∧ (applyWrites c s).host = s.host := by
  unfold applyWrites
  rcases applyText_cases c s with ⟨_, e⟩ | ⟨a, b, _, _, e⟩ | ⟨a, b, _, _, e⟩ <;> rw [e] <;>
    rcases applyLength_cases c _ with ⟨_, e⟩ | ⟨n, _, _, e⟩ | ⟨n, _, _, e⟩ <;> rw [e] <;> simp [raiseFault_eq]

/-- What an accepting step can do: the request presented is consumed, and a request runs or an illegal word faults. -/
theorem acceptRequest_cases {s t : State} (hh : handshake s = true) (h : acceptRequest s = .next t) :
    s.state = .ready ∧
      ((∃ i, exec i { s with req := none } = .next t) ∨ t = raiseFault .illegalReq { s with req := none }) := by
  simp only [handshake, Bool.and_eq_true, State.statusReady, decide_eq_true_eq] at hh
  refine ⟨hh.2, ?_⟩
  unfold acceptRequest at h
  split at h
  · unfold execWord at h
    split at h
    · exact .inl ⟨_, h⟩
    · rw [execIllegal, accept_ready (s := { s with req := none }) _ hh.2] at h
      cases h
      exact .inr rfl
  · rename_i hn
    simp [hn] at hh

/-- The state in which a request presented in host cycle `c` is accepted: after the cycle's writes, the host's action
and the request consumed. -/
def accepting (c : HostCycle) (rest : List HostAction) (s : State) : State :=
  { applyWrites c { s with host := rest } with req := none }

/-- What a turn in which the host changes no line can do. -/
theorem quietTurn_cases {s t : State} (h : quietTurn s = .next t) :
    t = s ∨
    (s.rst = false ∧ s.state = .ready ∧
      ((∃ i, exec i { s with req := none } = .next t) ∨ t = raiseFault .illegalReq { s with req := none })) ∨
    (s.rst = false ∧ sequencerStep s = .next t) := by
  unfold quietTurn at h
  split at h
  · cases h; exact .inl rfl
  · have hr : s.rst = false := by simpa using ‹¬ s.rst = true›
    split at h
    · exact .inr (.inl ⟨hr, acceptRequest_cases ‹_› h⟩)
    · exact .inr (.inr ⟨hr, h⟩)

/-- Everything a step can do when it answers a next state. -/
inductive Transition (s : State) : State → Prop where
  /-- `rst` is asserted. -/
  | assertReset (rest : List HostAction) : s.rst = false → s.host = .assertReset :: rest →
      Transition s (assertReset { s with host := rest })
  /-- `rst` is released. -/
  | releaseReset (c : Cfg) (rest : List HostAction) : s.rst = true → s.host = .releaseReset c :: rest →
      Transition s (releaseReset c { s with host := rest })
  /-- The host's script and its request line move, or nothing happens. -/
  | hostMoves (rest : List HostAction) (r : Option Word) : Transition s { s with host := rest, req := r }
  /-- A host cycle's writes, with no request accepted. -/
  | writes (c : HostCycle) (rest : List HostAction) (r : Option Word) : s.rst = false →
      Transition s { applyWrites c { s with host := rest } with req := r }
  /-- A request is accepted, after the writes of its host cycle. -/
  | accepts (c : HostCycle) (rest : List HostAction) (i : Instr) (t : State) : s.rst = false →
      (accepting c rest s).state = .ready → exec i (accepting c rest s) = .next t → Transition s t
  /-- An illegal word is accepted, after the writes of its host cycle. -/
  | illegal (c : HostCycle) (rest : List HostAction) : s.rst = false → (accepting c rest s).state = .ready →
      Transition s (raiseFault .illegalReq (accepting c rest s))
  /-- The sequencer's step. -/
  | sequencer (rest : List HostAction) (t : State) : s.rst = false →
      sequencerStep { s with host := rest } = .next t → Transition s t

/-- A turn in which the host changes no line is one of the transitions. -/
theorem quietTurn_transition {s t : State} (rest : List HostAction)
    (h : quietTurn { s with host := rest } = .next t) : Transition s t := by
  rcases quietTurn_cases h with rfl | ⟨hr, hs, ⟨i, ha⟩ | rfl⟩ | ⟨hr, hq⟩
  · exact .hostMoves rest s.req
  · exact .accepts {} rest i t hr hs ha
  · exact .illegal {} rest hr hs
  · exact .sequencer rest t hr hq

/-- A host cycle is one of the transitions. -/
theorem hostCycle_transition {s t : State} (c : HostCycle) (rest : List HostAction)
    (h : hostCycle c { s with host := rest } = .next t) : Transition s t := by
  have move : ∀ u : State, ∃ r, present c u = { u with req := r } := fun u => by
    unfold present
    split
    · exact ⟨_, rfl⟩
    · exact ⟨u.req, rfl⟩
  simp only [hostCycle] at h
  split at h
  · cases h
    obtain ⟨r, e⟩ := move { s with host := rest }
    rw [e]
    exact .hostMoves rest r
  · have hr : s.rst = false := Bool.eq_false_iff.mpr ‹¬ s.rst = true›
    obtain ⟨r, e⟩ := move (applyWrites c { s with host := rest })
    rw [e] at h
    split at h
    · rename_i hh
      rcases acceptRequest_cases hh h with ⟨hs, ⟨i, ha⟩ | rfl⟩
      · exact .accepts c rest i t hr hs ha
      · exact .illegal c rest hr hs
    · cases h
      exact .writes c rest r hr

/-- Every step that answers a next state is one of the transitions. -/
theorem step_transition {s t : State} (h : step s = .next t) : Transition s t := by
  unfold step turn at h
  split at h
  · exact quietTurn_transition s.host h
  · rename_i a rest hhost
    cases a with
    | assertReset =>
      cases h
      by_cases hr : s.rst = true
      · simpa [assertReset, hr] using Transition.hostMoves (s := s) rest s.req
      · exact .assertReset rest (by simpa using hr) hhost
    | releaseReset c =>
      simp only [hostTurn] at h
      split at h
      · cases h; exact .releaseReset c rest ‹s.rst = true› hhost
      · exact hostCycle_transition {} rest h
    | cycle c => exact hostCycle_transition c rest h
    | withdraw => cases h; exact .hostMoves rest none
    | awaitAccept =>
      simp only [hostTurn] at h
      split at h
      · cases h; exact .hostMoves rest s.req
      · exact quietTurn_transition s.host h
    | waitReady =>
      simp only [hostTurn] at h
      split at h
      · cases h; exact .hostMoves rest s.req
      · exact quietTurn_transition s.host h
    | pass => exact quietTurn_transition rest h

/-- A property that the block's transitions keep, the two of reset apart. -/
structure Kept (P : State → Prop) : Prop where
  /-- The host's script and its request line move. -/
  hostMoves : ∀ s h r, P s → P { s with host := h, req := r }
  /-- A text byte write. -/
  textWrite : ∀ a b s, s.rst = false → P s → P (textWrite a b s)
  /-- A length write. -/
  lengthWrite : ∀ n s, s.rst = false → P s → P (lengthWrite n s)
  /-- A request is accepted. -/
  exec : ∀ i s t, s.rst = false → s.state = .ready → exec i s = .next t → P s → P t
  /-- An illegal word is accepted. -/
  illegal : ∀ s, s.rst = false → s.state = .ready → P s → P (raiseFault .illegalReq s)
  /-- The sequencer's step. -/
  sequencer : ∀ s t, s.rst = false → sequencerStep s = .next t → P s → P t

variable {P : State → Prop}

/-- The writes of a host cycle keep what a text byte write and a length write keep. -/
theorem Kept.applyWrites (k : Kept P) (c : HostCycle) {s : State} (hr : s.rst = false) (hP : P s) :
    P (applyWrites c s) := by
  have ht : P (applyText c s) ∧ (applyText c s).rst = false := by
    unfold applyText
    split
    · refine ⟨k.textWrite _ _ _ hr hP, ?_⟩
      rcases textWrite_cases (textPort s.cfg _) _ s with ⟨_, e⟩ | ⟨_, e⟩ <;> rw [e] <;> simp [raiseFault_eq, hr]
    · exact ⟨hP, hr⟩
  unfold Machine.applyWrites applyLength
  split
  · exact k.lengthWrite _ _ ht.2 ht.1
  · exact ht.1

/-- A property that every transition keeps is kept by every step, if the step that asserts `rst` and the step that
releases it keep it too. -/
theorem Kept.step (k : Kept P) {s t : State}
    (ha : s.rst = false → ∀ rest, s.host = .assertReset :: rest → P (assertReset { s with host := rest }))
    (hr : s.rst = true → ∀ c rest, s.host = .releaseReset c :: rest → P (releaseReset c { s with host := rest }))
    (h : step s = .next t) (hP : P s) : P t := by
  have writes : s.rst = false → ∀ c rest, P (Machine.applyWrites c { s with host := rest }) := fun hrst c rest =>
    k.applyWrites c (s := { s with host := rest }) hrst (k.hostMoves s rest s.req hP)
  have writes' : s.rst = false → ∀ c rest, P (accepting c rest s) ∧ (accepting c rest s).rst = false :=
    fun hrst c rest => ⟨k.hostMoves _ _ none (writes hrst c rest),
      ((applyWrites_frame c { s with host := rest }).1).trans hrst⟩
  cases step_transition h with
  | assertReset rest hrst hh => exact ha hrst rest hh
  | releaseReset c rest hrst hh => exact hr hrst c rest hh
  | hostMoves rest r => exact k.hostMoves s rest r hP
  | writes c rest r hrst =>
    exact k.hostMoves _ (Machine.applyWrites c { s with host := rest }).host r (writes hrst c rest)
  | accepts c rest i t hrst hs he => exact k.exec i _ t (writes' hrst c rest).2 hs he (writes' hrst c rest).1
  | illegal c rest hrst hs => exact k.illegal _ (writes' hrst c rest).2 hs (writes' hrst c rest).1
  | sequencer rest t hrst hq => exact k.sequencer { s with host := rest } t hrst hq (k.hostMoves s rest s.req hP)

/-- A step that asserts no reset keeps what the transitions keep, from a state with `rst` released. -/
theorem Kept.step_released (k : Kept P) {s t : State} (hrst : s.rst = false)
    (ha : ∀ rest, s.host ≠ .assertReset :: rest) (h : Machine.step s = .next t) (hP : P s) : P t :=
  k.step (fun _ rest hh => absurd hh (ha rest)) (fun hc => absurd hc (by simp [hrst])) h hP

/-- Everything the sequencer's step can do when it answers a next state (40_transfer.md R98). -/
theorem sequencerStep_cases {s t : State} (h : sequencerStep s = .next t) :
    (s.state = .config ∧ t = configStep s) ∨
    ((s.state = .initializing ∨ s.state = .busy) ∧ ∃ x, (byteProgram s)[s.seq.bidx]? = some x ∧
      t = moveOn (byteProgram s).length (perform (lineOp x s.seq.nib s.seq.ustep) s)) ∨
    ((s.state = .ready ∨ s.state = .fault) ∧ t = s) := by
  have job : jobStep s = .next t → ∃ x, (byteProgram s)[s.seq.bidx]? = some x ∧
      t = moveOn (byteProgram s).length (perform (lineOp x s.seq.nib s.seq.ustep) s) := by
    intro h
    unfold jobStep at h
    split at h
    · cases h; exact ⟨_, ‹_›, rfl⟩
    · cases h
  unfold sequencerStep at h
  split at h
  · cases h; exact .inl ⟨‹_›, rfl⟩
  · exact .inr (.inl ⟨.inl ‹_›, job h⟩)
  · exact .inr (.inl ⟨.inr ‹_›, job h⟩)
  · cases h; exact .inr (.inr ⟨.inl ‹_›, rfl⟩)
  · cases h; exact .inr (.inr ⟨.inr ‹_›, rfl⟩)

/-- Everything the configuration step can do (70_reset_and_hazards.md R156). -/
theorem configStep_cases (s : State) :
    (s.cfg.wellFormed s.limits = false ∧ configStep s = raiseFault .cfgInvalid s) ∨
    (s.cfg.wellFormed s.limits = true ∧ (∃ p ∈ s.cfg.pins, p ∈ s.platRejects) ∧
      configStep s = raiseFault .cfgReject s) ∨
    (s.cfg.wellFormed s.limits = true ∧ (∀ p ∈ s.cfg.pins, p ∉ s.platRejects) ∧
      configStep s = startJob .initializing .init (emitConfigure s)) := by
  unfold configStep configBroken platformAccepts
  cases hw : s.cfg.wellFormed s.limits
  · exact .inl ⟨rfl, by simp⟩
  · by_cases hp : ∃ p ∈ s.cfg.pins, p ∈ s.platRejects
    · refine .inr (.inl ⟨rfl, hp, ?_⟩)
      simp [hp]
    · refine .inr (.inr ⟨rfl, by simpa using hp, ?_⟩)
      rw [if_neg (by simp), if_neg (by simpa using hp)]

/-- Moving on after an event either advances the pointer or ends the job (10_state.md R28, 40_transfer.md R99). -/
theorem moveOn_cases (len : Nat) (s : State) :
    (∃ q, advance len s.seq = some q ∧ moveOn len s = { s with seq := q }) ∨
    (advance len s.seq = none ∧ moveOn len s = endJob s) := by
  unfold moveOn
  split
  · exact .inl ⟨_, ‹_›, rfl⟩
  · exact .inr ⟨‹_›, rfl⟩

/-- The advance ends a job only after the recovery `Wait` of the low nibble of its last byte (40_transfer.md R99). -/
theorem advance_eq_none (len : Nat) (q : Seq) :
    advance len q = none ↔ q.ustep = .recover ∧ q.nib = .low ∧ len ≤ q.bidx + 1 := by
  obtain ⟨b, n, u⟩ := q
  cases u <;> cases n <;> simp [advance, nextMicroStep]

end Sys2Proof.Machine
end

