-- ==== Sys2Proof/Laws/Job.lean ====
section
/-! SUPPORT. A job in flight: the one step it takes while the host changes no line, what follows the event of a step, and
the places of the bytes in a RENDER's byte program. -/

namespace Sys2Proof.Machine

/-- A job in flight is in one of two block states (10_state.md R32). -/
theorem state_of_running {s : State} (h : s.running = true) : s.state = .initializing ∨ s.state = .busy := by
  simpa [State.running, State.statusBusy] using h

/-- The step of a job in flight in a quiet host's turn: the event the pointer names, and on (40_transfer.md R98). -/
theorem step_of_running {s : State} {x : Transfer} {k : Nat} (hr : s.rst = false) (hj : s.running = true)
    (hq : s.quietFor (k + 1) = true) (hx : (byteProgram s)[s.seq.bidx]? = some x) :
    step s = .next (moveOn (byteProgram s).length
      (perform (lineOp x s.seq.nib s.seq.ustep) { s with host := hostAfter 1 s.host })) := by
  have hp : byteProgram { s with host := hostAfter 1 s.host } = byteProgram s := byteProgram_congr rfl rfl rfl rfl rfl
  have hjob : jobStep { s with host := hostAfter 1 s.host } = .next (moveOn (byteProgram s).length
      (perform (lineOp x s.seq.nib s.seq.ustep) { s with host := hostAfter 1 s.host })) := by
    simp only [jobStep, hp, hx]
  rcases state_of_running hj with h | h <;> rw [step_of_quiet hr (by simp [h]) hq, ← hjob, sequencerStep] <;>
    simp only [h]

/-- The job step, taken apart: the pointer advances, or the event was the job's last `Wait` and the job ends
(10_state.md R28, 40_transfer.md R99). -/
theorem moveOn_perform_cases (s : State) (x : Transfer) :
    (∃ q, advance (byteProgram s).length s.seq = some q ∧
      moveOn (byteProgram s).length (perform (lineOp x s.seq.nib s.seq.ustep) s) =
        { perform (lineOp x s.seq.nib s.seq.ustep) s with seq := q }) ∨
    (s.seq.ustep = .recover ∧ s.seq.nib = .low ∧ (byteProgram s).length ≤ s.seq.bidx + 1 ∧
      moveOn (byteProgram s).length (perform (lineOp x s.seq.nib s.seq.ustep) s) = endJob (emitWait s)) := by
  have hs : (perform (lineOp x s.seq.nib s.seq.ustep) s).seq = s.seq := by rw [perform_eq]
  rcases moveOn_cases (byteProgram s).length (perform (lineOp x s.seq.nib s.seq.ustep) s) with ⟨q, ha, e⟩ | ⟨ha, e⟩
  · exact .inl ⟨q, hs ▸ ha, e⟩
  · rw [hs, advance_eq_none] at ha
    refine .inr ⟨ha.1, ha.2.1, ha.2.2, ?_⟩
    rw [e]
    simp only [ha.1, lineOp, perform]

/-- After the end of a job none is in flight (40_transfer.md R99). -/
@[simp] theorem running_endJob (s : State) : (endJob s).running = false := by
  simp only [State.running, State.statusBusy, endJob]
  split <;> simp

@[simp] theorem length_lineProgram (s : State) (addr a : Nat) : (lineProgram s addr a).length = s.cfg.w + 1 := by
  simp [lineProgram]

/-- A RENDER has `N * (W + 1)` byte transfers (41_layout.md R117). -/
theorem length_renderProgram (s : State) : (renderProgram s).length = s.cfg.n * (s.cfg.w + 1) := by
  rw [renderProgram, List.flatMap_def]
  exact length_flatten_rows _ _ _ fun i => length_lineProgram s _ _

/-- Byte `i * (W + 1) + k` of a RENDER is byte `k` of its line `i` (41_layout.md R117). -/
theorem getElem?_renderProgram (s : State) {i k : Nat} (hi : i < s.cfg.n) (hk : k < s.cfg.w + 1) :
    (renderProgram s)[i * (s.cfg.w + 1) + k]? =
      (lineProgram s (s.cfg.lineAddr.getD i 0) (i * s.cfg.w))[k]? := by
  rw [renderProgram, List.flatMap_def]
  exact getElem?_flatten_rows _ _ _ _ _ (fun i => length_lineProgram s _ _) hi hk

end Sys2Proof.Machine
end

