-- ==== Sys2Proof/Laws/PerInstr.lean ====
section
/-! SUPPORT. A family of statements about each request as syntax: its word matches its own row of the opcode table and no
other, and keeps its operands in the row's fields. -/

namespace Sys2Proof.Laws.EncodingMatchesRow

/-- The mask and the match of the opcode table's row of a request (30_encoding.md R67 to R69). -/
def rowOf : Instr → Word × Word
  | .init => (0xFFFF#16, 0x1000#16)
  | .xfer _ _ => (0xFE00#16, 0x2000#16)
  | .render => (0xFFFF#16, 0x3000#16)

/-- The encoded word matches the request's own row, and its operand fields hold the operands. -/
def Statement (i : Instr) : Prop :=
  encode i &&& (rowOf i).1 = (rowOf i).2 ∧
    match i with
    | .init => True
    | .xfer m v => (encode (.xfer m v)).getLsbD 8 = m.toBit ∧ (encode (.xfer m v)).extractLsb' 0 8 = v
    | .render => True

theorem init : Statement .init := by
  refine ⟨?_, trivial⟩
  decide

theorem xfer (m : Mode) (v : Byte) : Statement (.xfer m v) := by
  have h : ∀ b : Bool, ∀ v : Byte,
      (0b0010#4 ++ 0b000#3 ++ BitVec.ofBool b ++ v) &&& 0xFE00#16 = 0x2000#16 ∧
      (0b0010#4 ++ 0b000#3 ++ BitVec.ofBool b ++ v).getLsbD 8 = b ∧
      (0b0010#4 ++ 0b000#3 ++ BitVec.ofBool b ++ v).extractLsb' 0 8 = v := by decide
  exact h m.toBit v

theorem render : Statement .render := by
  refine ⟨?_, trivial⟩
  decide

end Sys2Proof.Laws.EncodingMatchesRow
end

