-- ==== Sys2Proof/Laws/Trace.lean ====
section
/-! SUPPORT. What one more event does to the levels and the driving that a trace gives, and what setting a latch does. -/

namespace Sys2Proof.Machine

theorem drivenAfter_append (tr : List Event) (e : Event) :
    drivenAfter (tr ++ [e]) =
      match e with
      | .configure _ => true
      | .reset => false
      | .set _ _ => drivenAfter tr
      | .wait => drivenAfter tr := by
  unfold drivenAfter
  rw [List.foldl_append]
  cases e <;> rfl

theorem levelAfter_append (p : PinId) (tr : List Event) (e : Event) :
    levelAfter p (tr ++ [e]) =
      match e with
      | .set q b => if q = p then b else levelAfter p tr
      | .reset => false
      | .configure _ => levelAfter p tr
      | .wait => levelAfter p tr := by
  unfold levelAfter
  rw [List.foldl_append]
  cases e <;> rfl

/-- Setting one latch leaves the others alone (10_state.md R21). -/
theorem latch_setLatch (o : Latches) (l k : Line) (b : Bool) :
    latch (setLatch o l b) k = if l = k then b else latch o k := by
  cases l <;> cases k <;> rfl

/-- In a configuration with distinct pins two lines never share a pin (00_scope.md R6). -/
theorem pinOf_eq_iff {c : Cfg} (h : c.pinsDistinct = true) (l k : Line) : pinOf c l = pinOf c k ↔ l = k := by
  simp [Cfg.pinsDistinct, Cfg.pins] at h
  refine ⟨fun e => ?_, fun e => e ▸ rfl⟩
  cases l <;> cases k <;> simp [pinOf] at * <;> simp_all

end Sys2Proof.Machine
end

