-- ==== Sys2Proof/Tests/Slice0.lean ====
section
/-! SUPPORT. Tests of the model against values of the spec (95_test_vectors.md and the worked examples of the rules), and
for each obligation with hypotheses one witness that meets them. -/

namespace Sys2Proof.Tests

open Sys2Proof Sys2Proof.Machine

/-! Configurations and states -/

/-- CFG-A of 95_test_vectors.md section 0. -/
def cfgA : Cfg := { resetCfg with lineAddr := [0x80, 0xC0] }

/-- A small configuration, for short byte programs. -/
def cfgS : Cfg := { resetCfg with w := 2, lineAddr := [0x80, 0xC0], textMax := 4 }

/-- The block right after the release of reset, with a given host script. -/
def fresh (c : Cfg) (h : List HostAction) : State := { State.reset with cfg := c, host := h }

/-- READY after the initialization. -/
def ready (c : Cfg) (h : List HostAction) : State :=
  { fresh c h with state := .ready, initDone := true, job := .none, driven := true }

/-- BUSY at the start of `XFER D, 0x48`. -/
def busy (c : Cfg) (h : List HostAction) : State :=
  { ready c h with state := .busy, job := .xfer, curMode := .data, curVal := 0x48#8 }

/-- BUSY at the start of a RENDER of the text `Hi`. -/
def rendering (c : Cfg) (h : List HostAction) : State :=
  { ready c h with state := .busy, job := .render, raster := storeRows (format (split [0x48#8, 0x69#8]) c.w c.n) }

/-- FAULT with code 3. -/
def faulted (c : Cfg) (h : List HostAction) : State :=
  { ready c h with state := .fault, fault := true, errCode := .illegalReq }

/-- `rst` asserted. -/
def inReset (c : Cfg) (h : List HostAction) : State := { fresh c h with rst := true }

/-- The host cycle that presents a word. -/
def present1 (w : Word) : HostAction := .cycle { req := some w }

/-! Well-formedness: one ill-formed term for each check (00_scope.md R6) -/

theorem test_wf_accepts : Cfg.wellFormed ⟨20, 4⟩ cfgA = true := by decide

/-- The bounds themselves are allowed: W = 1, W = W_MAX, N = 1, N = N_MAX, a line address of 0x00 and of 0xFF. -/
theorem test_wf_accepts_bounds :
    Cfg.wellFormed ⟨20, 4⟩ { cfgA with w := 1, lineAddr := [0x00] } = true ∧
    Cfg.wellFormed ⟨20, 4⟩ { cfgA with w := 20, lineAddr := [0x80, 0xC0, 0x94, 0xFF] } = true := by decide

theorem test_wf_rejects_repeated_pin : Cfg.wellFormed ⟨20, 4⟩ { cfgA with dPin3 := 25 } = false := by decide
theorem test_wf_rejects_rs_as_e : Cfg.wellFormed ⟨20, 4⟩ { cfgA with ePin := 7 } = false := by decide
theorem test_wf_rejects_zero_width : Cfg.wellFormed ⟨20, 4⟩ { cfgA with w := 0 } = false := by decide
theorem test_wf_rejects_wide : Cfg.wellFormed ⟨20, 4⟩ { cfgA with w := 21 } = false := by decide
theorem test_wf_rejects_no_line : Cfg.wellFormed ⟨20, 4⟩ { cfgA with lineAddr := [] } = false := by decide
theorem test_wf_rejects_many_lines :
    Cfg.wellFormed ⟨20, 4⟩ { cfgA with lineAddr := [0x80, 0xC0, 0x94, 0xD4, 0x80] } = false := by decide
theorem test_wf_rejects_wide_address :
    Cfg.wellFormed ⟨20, 4⟩ { cfgA with lineAddr := [0x80, 0x100] } = false := by decide

/-- Every request is well formed; what is not one is refused by the decoder. -/
theorem test_wf_instr :
    Instr.init.wellFormed = true ∧ (Instr.xfer .data 0xFF#8).wellFormed = true ∧ Instr.render.wellFormed = true := by decide

/-! Decoding, from words written out bit by bit (30_encoding.md R64 to R69; 95_test_vectors.md L2.2) -/

theorem test_decode_init : decode 0b0001000000000000#16 = some .init := by decide
theorem test_decode_xfer_command : decode 0b0010000000101000#16 = some (.xfer .command 0x28#8) := by decide
theorem test_decode_xfer_data : decode 0b0010000101001000#16 = some (.xfer .data 0x48#8) := by decide
theorem test_decode_render : decode 0b0011000000000000#16 = some .render := by decide

theorem test_decode_xfer_ends :
    decode 0x2000#16 = some (.xfer .command 0x00#8) ∧ decode 0x20FF#16 = some (.xfer .command 0xFF#8) ∧
    decode 0x2100#16 = some (.xfer .data 0x00#8) ∧ decode 0x21FF#16 = some (.xfer .data 0xFF#8) := by decide

theorem test_decode_illegal :
    ([0x0000#16, 0x0FFF#16, 0x1001#16, 0x1100#16, 0x1200#16, 0x2200#16, 0x2300#16, 0x2E00#16, 0x3001#16, 0x3100#16,
      0x4000#16, 0xF000#16, 0xFFFF#16].all fun w => (decode w).isNone) = true := by decide

/-- Example of 40_transfer.md R96: `XFER C, 0x0C` is 0x200C. -/
theorem test_encode_xfer : encode (.xfer .command 0x0C#8) = 0x200C#16 := by decide

theorem test_table_word :
    decodeTableWord 16 0x1000 = some .init ∧ decodeTableWord 16 0x2148 = some (.xfer .data 0x48#8) ∧
    decodeTableWord 16 0x3000 = some .render ∧ decodeTableWord 16 0x4000 = none := by decide

/-! One step of each request -/

/-- A placed XFER is accepted by the very next step (40_transfer.md R96): BUSY, STATUS 0x06 (F5's start). -/
theorem test_xfer_first_step :
    ∃ t, step (State.reset.withFetchWord 16 0x2148) = .next t ∧ t.state = .busy ∧ t.job = .xfer ∧ t.curMode = .data ∧
      t.curVal = 0x48#8 ∧ t.status = 0x06#8 ∧ t.trace = [] := ⟨_, rfl, by decide⟩

theorem test_init_first_step :
    ∃ t, step (State.reset.withFetchWord 16 0x1000) = .next t ∧ t.state = .busy ∧ t.job = .init ∧
      t.initDone = true := ⟨_, rfl, by decide⟩

/-- L2.3.1: the raster of `Hi` under CFG-A. -/
theorem test_render_first_step :
    ∃ t, step ({ State.reset with cfg := cfgA, textLen := 2, textBuf := [(0, 0x48#8), (1, 0x69#8)] }.withFetchWord 16
        0x3000) = .next t ∧ t.job = .render ∧
      ([0, 1, 2, 19, 20, 39, 40].map fun a => Mem.read t.raster a) =
        [some 0x48#8, some 0x69#8, some 0x20#8, some 0x20#8, some 0x20#8, some 0x20#8, none] := ⟨_, rfl, by decide⟩

/-- F13: a RENDER of a text byte never written. -/
theorem test_render_unwritten :
    step ({ State.reset with textLen := 1 }.withFetchWord 16 0x3000) = .fault .unwrittenText := rfl

/-- F14: a text write and a RENDER in one host cycle. -/
theorem test_same_cycle :
    ∃ t, step { ready cfgS [.cycle { text := some (0, 0x41#8), req := some 0x3000#16 }] with textLen := 1 } = .next t ∧
      Mem.read t.raster 0 = some 0x41#8 := ⟨_, rfl, by decide⟩

/-! The encoder (95_test_vectors.md L2.1) -/

/-- L2.1.1: the full trace of `XFER D, 0x48` on the pins of CFG-A. -/
theorem test_transfer_events :
    transferEvents cfgA ⟨.data, 0x48#8⟩ =
      [.set 7 true, .set 25 false, .set 24 false, .set 23 true, .set 18 false, .wait, .set 8 true, .wait, .set 8 false,
        .wait, .set 7 true, .set 25 false, .set 24 false, .set 23 false, .set 18 true, .wait, .set 8 true, .wait,
        .set 8 false, .wait] := by decide

/-- L2.1: nibbles of table rows. -/
theorem test_nibbles :
    hi 0x28#8 = 0b0010#4 ∧ lo 0x28#8 = 0b1000#4 ∧ hi 0xD4#8 = 0b1101#4 ∧ lo 0xD4#8 = 0b0100#4 ∧
    hi 0xA5#8 = 0b1010#4 ∧ lo 0xA5#8 = 0b0101#4 := by decide

/-- L2.3.2: bytes of the RENDER of `Hi` under CFG-A, and two of its micro-steps. -/
theorem test_render_bytes :
    ([0, 1, 21, 22].map fun k => (byteProgram (rendering cfgA []))[k]?) =
      [some ⟨.command, 0x80#8⟩, some ⟨.data, 0x48#8⟩, some ⟨.command, 0xC0#8⟩, some ⟨.data, 0x20#8⟩] ∧
    lineOp ⟨.command, 0xC0#8⟩ .high .setD3 = .set .d3 true ∧ lineOp ⟨.data, 0x48#8⟩ .low .setD1 = .set .d1 false := by
  decide

/-! The rasterizer (95_test_vectors.md L2.3) -/

theorem test_raster_short :
    format (split []) 3 2 = [[0x20#8, 0x20#8, 0x20#8], [0x20#8, 0x20#8, 0x20#8]] ∧
    format (split [0x61#8, 0x62#8, 0x63#8]) 3 2 = [[0x61#8, 0x62#8, 0x63#8], [0x20#8, 0x20#8, 0x20#8]] ∧
    format (split [0x61#8, 0x62#8, 0x63#8, 0x64#8]) 3 2 = [[0x61#8, 0x62#8, 0x63#8], [0x20#8, 0x20#8, 0x20#8]] := by
  decide

theorem test_raster_lines :
    format (split [0x61#8, 0x0A#8, 0x62#8, 0x0A#8, 0x63#8]) 3 2 = [[0x61#8, 0x20#8, 0x20#8], [0x62#8, 0x20#8, 0x20#8]] ∧
    format (split [0x0A#8, 0x0A#8, 0x7A#8]) 2 3 = [[0x20#8, 0x20#8], [0x20#8, 0x20#8], [0x7A#8, 0x20#8]] ∧
    format (split [0x61#8, 0x62#8, 0x0A#8]) 2 2 = [[0x61#8, 0x62#8], [0x20#8, 0x20#8]] ∧
    format (split [0x78#8, 0x79#8, 0x0A#8, 0x7A#8]) 1 1 = [[0x78#8]] := by decide

/-- CR and NUL are ordinary bytes. -/
theorem test_raster_ordinary_bytes :
    split [0x61#8, 0x0D#8, 0x0A#8, 0x62#8] = [[0x61#8, 0x0D#8], [0x62#8]] ∧
    format (split [0x00#8]) 2 1 = [[0x00#8, 0x20#8]] := by decide

/-! Faults, status and reset (95_test_vectors.md L2.4, L2.5) -/

/-- F1: an illegal request in READY. -/
theorem test_fault_illegal :
    (ready cfgA []).status = 0x05#8 ∧
    ∃ t, step (ready cfgA [present1 0x4000#16]) = .next t ∧ t.state = .fault ∧ t.status = 0x3C#8 ∧ t.trace = [] :=
  ⟨by decide, _, rfl, by decide⟩

/-- F2, F5 and F6: a text write at TEXT_MAX in READY, in BUSY and in FAULT. -/
theorem test_fault_text_range :
    (∃ t, step (ready cfgA [.cycle { text := some (64, 0x00#8) }]) = .next t ∧ t.state = .fault ∧ t.status = 0x4C#8) ∧
    (∃ t, step (busy cfgA [.cycle { text := some (64, 0x00#8) }]) = .next t ∧ t.state = .busy ∧ t.status = 0x4E#8) ∧
    (∃ t, step (faulted cfgA [.cycle { text := some (70, 0x00#8) }]) = .next t ∧ t.errCode = .illegalReq) :=
  ⟨⟨_, rfl, by decide⟩, ⟨_, rfl, by decide⟩, ⟨_, rfl, by decide⟩⟩

/-- F3 and F4: lengths 65 and 64. -/
theorem test_length_bounds :
    (∃ t, step (ready cfgA [.cycle { len := some 65 }]) = .next t ∧ t.textLen = 0 ∧ t.status = 0x4C#8) ∧
    (∃ t, step (ready cfgA [.cycle { len := some 64 }]) = .next t ∧ t.textLen = 64 ∧ t.fault = false) :=
  ⟨⟨_, rfl, by decide⟩, ⟨_, rfl, by decide⟩⟩

/-- The text port of CFG-A is 7 bits wide, so that it carries 64 and 127; of a wider number it carries the low bits
(30_encoding.md R73; log entry 13). -/
theorem test_text_port :
    bitWidth 0 = 0 ∧ bitWidth 1 = 1 ∧ bitWidth 63 = 6 ∧ bitWidth 64 = 7 ∧ textPort cfgA 64 = 64 ∧ textPort cfgA 127 = 127 ∧
    (∃ t, step (ready cfgA [.cycle { len := some 127 }]) = .next t ∧ t.errCode = .textRange) ∧
    (∃ t, step (ready cfgA [.cycle { len := some 130 }]) = .next t ∧ t.textLen = 2 ∧ t.fault = false) :=
  ⟨by decide, by decide, by decide, by decide, by decide, by decide, ⟨_, rfl, by decide⟩, ⟨_, rfl, by decide⟩⟩

/-- F8 to F11: the configuration step's two faults and their order. -/
theorem test_config_faults :
    (∃ t, step { fresh cfgA [] with platRejects := [8] } = .next t ∧ t.status = 0x18#8 ∧ t.trace = []) ∧
    (∃ t, step (fresh { cfgA with dPin3 := 25 } []) = .next t ∧ t.status = 0x28#8) ∧
    (∃ t, step { fresh { cfgA with w := 0 } [] with platRejects := [8] } = .next t ∧ t.errCode = .cfgInvalid) ∧
    (∃ t, step (fresh { cfgA with ePin := 7 } []) = .next t ∧ t.errCode = .cfgInvalid) :=
  ⟨⟨_, rfl, by decide⟩, ⟨_, rfl, by decide⟩, ⟨_, rfl, by decide⟩, ⟨_, rfl, by decide⟩⟩

/-- R-2: the configuration step of CFG-A. The pins of `Configure` are a set, listed in rising order. -/
theorem test_configure :
    ∃ t, step (fresh cfgA []) = .next t ∧ t.trace = [.configure [7, 8, 18, 23, 24, 25]] ∧ t.status = 0x02#8 :=
  ⟨_, rfl, by decide⟩

/-- R-3, R-4 and R-5: asserting reset during a job, in FAULT and before any event. -/
theorem test_reset_marker :
    (∃ t, step { busy cfgA [.assertReset] with trace := [.wait] } = .next t ∧ t.trace = [.wait, .reset] ∧
      t.job = .init ∧ t.status = 0x00#8) ∧
    (∃ t, step (faulted cfgA [.assertReset]) = .next t ∧ t.fault = false ∧ t.errCode = .noFault) ∧
    (∃ t, step (fresh cfgA [.assertReset]) = .next t ∧ t.trace = []) :=
  ⟨⟨_, rfl, by decide⟩, ⟨_, rfl, by decide⟩, ⟨_, rfl, by decide⟩⟩

/-- Host programs (30_encoding.md R80): CLEAR is `XFER C, 0x01`, 0x2001; SETLINE is defined below `N` only. -/
theorem test_host_programs :
    hostClear = [.cycle { req := some 0x2001#16 }, .awaitAccept] ∧
    hostSetLine cfgA 1 = some [.cycle { req := some 0x20C0#16 }, .awaitAccept] ∧ hostSetLine cfgA 2 = none ∧
    hostPuts [0x48#8] =
      [.cycle { text := some (0, 0x48#8) }, .cycle { len := some 1 }, .cycle { req := some 0x3000#16 }, .awaitAccept] := by
  decide

/-- The end of a run (70_reset_and_hazards.md R174, R175): READY is a good end, FAULT an end that is not good, CONFIG none. -/
theorem test_run_ends :
    (ready cfgA []).goodEnd = true ∧ (faulted cfgA []).ended = true ∧ (faulted cfgA []).goodEnd = false ∧
    (fresh cfgA []).ended = false ∧ (busy cfgA []).ended = false := by decide

/-! Witnesses: for each obligation with hypotheses, states and operands that meet all of them together, one for each clause
and at the ends of its ranges. -/

theorem witness_StepRunsDecodedRequest :
    (∃ (s : State) (w : Word) (i : Instr) (rest : List HostAction),
      s.rst = false ∧ s.state = .ready ∧ decode w = some i ∧ s.host = .cycle { req := some w } :: rest) ∧
    (∃ (s : State) (w : Word) (i : Instr), s.rst = false ∧ s.state = .ready ∧ decode w = some i ∧ s.req = some w ∧
      s.host = []) ∧
    (∃ (s : State) (w : Word) (i : Instr) (rest : List HostAction),
      s.rst = false ∧ s.state = .ready ∧ decode w = some i ∧ s.req = some w ∧ s.host = .awaitAccept :: rest) ∧
    (∃ (s : State) (w : Word) (i : Instr) (rest : List HostAction),
      s.rst = false ∧ s.state = .ready ∧ decode w = some i ∧ s.req = some w ∧ s.host = .waitReady :: rest) ∧
    (∃ (s : State) (w : Word) (i : Instr) (rest : List HostAction),
      s.rst = false ∧ s.state = .ready ∧ decode w = some i ∧ s.req = some w ∧ s.host = .pass :: rest) :=
  ⟨⟨ready cfgS [present1 0x2148#16, .awaitAccept], 0x2148#16, .xfer .data 0x48#8, [.awaitAccept], by decide⟩,
    ⟨{ ready cfgS [] with req := some 0x1000#16 }, 0x1000#16, .init, by decide⟩,
    ⟨{ ready cfgS [.awaitAccept] with req := some 0x3000#16 }, 0x3000#16, .render, [], by decide⟩,
    ⟨{ ready cfgS [.waitReady] with req := some 0x3000#16 }, 0x3000#16, .render, [], by decide⟩,
    ⟨{ ready cfgS [.pass] with req := some 0x20FF#16 }, 0x20FF#16, .xfer .command 0xFF#8, [], by decide⟩⟩

theorem witness_IllegalRequestStopsBlock :
    (∃ (s : State) (w : Word) (rest : List HostAction),
      s.rst = false ∧ s.state = .ready ∧ decode w = none ∧ s.host = .cycle { req := some w } :: rest) ∧
    (∃ (s : State) (w : Word) (rest : List HostAction),
      s.rst = false ∧ s.state = .ready ∧ decode w = none ∧ s.req = some w ∧ s.host = .pass :: rest) ∧
    (∃ (s : State) (w : Word) (rest : List HostAction),
      s.rst = false ∧ s.state = .ready ∧ decode w = none ∧ s.req = some w ∧ s.host = rest ∧ rest = []) ∧
    (∃ (s : State) (w : Word) (rest : List HostAction),
      s.rst = false ∧ s.state = .ready ∧ decode w = none ∧ s.req = some w ∧ s.host = rest ∧ rest = .awaitAccept :: []) ∧
    (∃ (s : State) (w : Word) (rest : List HostAction),
      s.rst = false ∧ s.state = .ready ∧ decode w = none ∧ s.req = some w ∧ s.host = rest ∧ rest = .waitReady :: []) :=
  ⟨⟨ready cfgS [present1 0x0000#16], 0x0000#16, [], by decide⟩,
    ⟨{ ready cfgS [.pass] with req := some 0x2200#16 }, 0x2200#16, [], by decide⟩,
    ⟨{ ready cfgS [] with req := some 0xFFFF#16 }, 0xFFFF#16, [], by decide⟩,
    ⟨{ ready cfgS [.awaitAccept] with req := some 0x1001#16 }, 0x1001#16, [.awaitAccept], by decide⟩,
    ⟨{ ready cfgS [.waitReady] with req := some 0x4000#16 }, 0x4000#16, [.waitReady], by decide⟩⟩

theorem witness_RequestHeldWhileNotReady :
    (∃ (_ : Instr) (s : State), s.state ≠ .ready) ∧
    (∃ (s : State) (w : Word) (rest : List HostAction),
      s.rst = false ∧ s.state ≠ .ready ∧ s.host = .cycle { req := some w } :: rest) ∧
    (∃ (s t : State) (w : Word),
      s.rst = false ∧ s.state ≠ .ready ∧ s.quietFor 1 = true ∧ s.req = some w ∧ step s = .next t ∧
      s.host = [.awaitAccept]) :=
  ⟨⟨.init, fresh cfgS [], by decide⟩, ⟨busy cfgS [present1 0x1000#16], 0x1000#16, [], by decide⟩,
    ⟨{ busy cfgS [.awaitAccept] with req := some 0x1000#16 }, _, 0x1000#16, rfl, by decide, rfl, rfl, rfl, rfl⟩⟩

theorem witness_AcceptanceStartsJob :
    (∃ s : State, s.state = .ready ∧ (Instr.init = .render → ∀ a < s.textLen, (Mem.read s.textBuf a).isSome = true)) ∧
    (∃ s : State, s.state = .ready ∧
      (Instr.xfer .data 0x48#8 = .render → ∀ a < s.textLen, (Mem.read s.textBuf a).isSome = true)) ∧
    (∃ s : State, s.state = .ready ∧ 0 < s.textLen ∧
      (Instr.render = .render → ∀ a < s.textLen, (Mem.read s.textBuf a).isSome = true)) :=
  ⟨⟨ready cfgS [], rfl, by decide⟩, ⟨ready cfgS [], rfl, by decide⟩,
    ⟨{ ready cfgS [] with textLen := 2, textBuf := [(0, 0x48#8), (1, 0x69#8)] }, by decide⟩⟩

theorem witness_InitAcceptance : ∃ s : State, s.state = .ready := ⟨ready cfgS [], rfl⟩

theorem witness_XferAcceptance : ∃ (s : State) (_ : Mode) (_ : Byte), s.state = .ready :=
  ⟨ready cfgS [], .command, 0xFF#8, rfl⟩

theorem witness_RenderRasterizes :
    (∃ (s : State) (l : List Byte), s.state = .ready ∧ l.length = s.textLen ∧ 0 < s.textLen ∧
      ∀ a < s.textLen, Mem.read s.textBuf a = l[a]?) ∧
    (∃ (s : State) (l : List Byte), s.state = .ready ∧ l.length = s.textLen ∧ s.textLen = 0 ∧
      ∀ a < s.textLen, Mem.read s.textBuf a = l[a]?) ∧
    (∃ (s : State) (a : Nat), s.state = .ready ∧ a < s.textLen ∧ Mem.read s.textBuf a = none) :=
  ⟨⟨{ ready cfgS [] with textLen := 2, textBuf := [(0, 0x48#8), (1, 0x69#8)] }, [0x48#8, 0x69#8], by decide⟩,
    ⟨ready cfgS [], [], by decide⟩, ⟨{ ready cfgS [] with textLen := 1 }, 0, by decide⟩⟩

theorem witness_AcceptanceFrame :
    (∃ s t : State, exec .init s = .next t ∧ t ≠ s) ∧ (∃ s t : State, exec (.xfer .data 0x48#8) s = .next t ∧ t ≠ s) ∧
    (∃ s t : State, exec .render s = .next t ∧ t ≠ s) :=
  ⟨⟨ready cfgS [], _, rfl, by decide⟩, ⟨ready cfgS [], _, rfl, by decide⟩, ⟨ready cfgS [], _, rfl, by decide⟩⟩

theorem witness_NibbleTransferIsTenEvents :
    (∃ (s : State) (x : Transfer), s.rst = false ∧ s.running = true ∧ s.quietFor 10 = true ∧
      (byteProgram s)[s.seq.bidx]? = some x ∧ s.seq.ustep = .setRs ∧ s.seq.nib = .high) ∧
    (∃ (s : State) (x : Transfer), s.rst = false ∧ s.running = true ∧ s.quietFor 10 = true ∧
      (byteProgram s)[s.seq.bidx]? = some x ∧ s.seq.ustep = .setRs ∧ s.seq.nib = .low ∧ s.host ≠ []) :=
  ⟨⟨busy cfgS [], ⟨.data, 0x48#8⟩, by decide⟩,
    ⟨{ busy cfgS [.pass, .waitReady, present1 0x1000#16] with seq := ⟨0, .low, .setRs⟩ }, ⟨.data, 0x48#8⟩, by decide⟩⟩

theorem witness_ByteTransferIsTwentyEvents :
    (∃ (s : State) (x : Transfer), s.rst = false ∧ s.running = true ∧ s.quietFor 20 = true ∧
      (byteProgram s)[s.seq.bidx]? = some x ∧ s.seq.nib = .high ∧ s.seq.ustep = .setRs ∧ s.host = []) ∧
    (∃ (s : State) (x : Transfer), s.rst = false ∧ s.running = true ∧ s.quietFor 20 = true ∧
      (byteProgram s)[s.seq.bidx]? = some x ∧ s.seq.nib = .high ∧ s.seq.ustep = .setRs ∧ s.host = [.awaitAccept]) ∧
    ∃ (c : Cfg) (_ : Transfer), c.pinsDistinct = true :=
  ⟨⟨busy cfgS [], ⟨.data, 0x48#8⟩, by decide⟩,
    ⟨{ busy cfgS [.awaitAccept] with req := some 0x3000#16 }, ⟨.data, 0x48#8⟩, by decide⟩,
    cfgS, ⟨.command, 0xFF#8⟩, by decide⟩

theorem witness_PointerAdvance :
    (∃ (s : State) (x : Transfer), (s.rst = false ∧ s.running = true ∧ s.quietFor 1 = true ∧
      (byteProgram s)[s.seq.bidx]? = some x) ∧ s.seq.ustep = .lowerE) ∧
    (∃ (s : State) (x : Transfer), (s.rst = false ∧ s.running = true ∧ s.quietFor 1 = true ∧
      (byteProgram s)[s.seq.bidx]? = some x) ∧ s.seq.ustep = .recover ∧ s.seq.nib = .high) ∧
    (∃ (s : State) (x : Transfer), (s.rst = false ∧ s.running = true ∧ s.quietFor 1 = true ∧
      (byteProgram s)[s.seq.bidx]? = some x) ∧ s.seq.ustep = .recover ∧ s.seq.nib = .low ∧
      s.seq.bidx + 1 < (byteProgram s).length) ∧
    (∃ (s : State) (x : Transfer), (s.rst = false ∧ s.running = true ∧ s.quietFor 1 = true ∧
      (byteProgram s)[s.seq.bidx]? = some x) ∧ s.seq.ustep = .recover ∧ s.seq.nib = .low ∧
      s.seq.bidx + 1 = (byteProgram s).length) :=
  ⟨⟨{ busy cfgS [] with seq := ⟨0, .low, .lowerE⟩ }, ⟨.data, 0x48#8⟩, by decide⟩,
    ⟨{ busy cfgS [.waitReady] with seq := ⟨0, .high, .recover⟩ }, ⟨.data, 0x48#8⟩, by decide⟩,
    ⟨{ rendering cfgS [.pass] with seq := ⟨4, .low, .recover⟩ }, ⟨.data, 0x20#8⟩, by decide⟩,
    ⟨{ busy cfgS [] with seq := ⟨0, .low, .recover⟩ }, ⟨.data, 0x48#8⟩, by decide⟩⟩

/-- The hypotheses of EndOfJob, with no fault pending, with one pending, and at the end of the reset-time INIT. -/
theorem witness_EndOfJob :
    (∃ (s : State) (x : Transfer), s.rst = false ∧ s.running = true ∧ s.quietFor 1 = true ∧
      (byteProgram s)[s.seq.bidx]? = some x ∧ s.seq.bidx + 1 = (byteProgram s).length ∧ s.seq.nib = .low ∧
      s.seq.ustep = .recover ∧ StrobeInv s ∧ s.fault = false) ∧
    (∃ (s : State) (x : Transfer), s.rst = false ∧ s.running = true ∧ s.quietFor 1 = true ∧
      (byteProgram s)[s.seq.bidx]? = some x ∧ s.seq.bidx + 1 = (byteProgram s).length ∧ s.seq.nib = .low ∧
      s.seq.ustep = .recover ∧ StrobeInv s ∧ s.fault = true) ∧
    (∃ (s : State) (x : Transfer), s.rst = false ∧ s.running = true ∧ s.quietFor 1 = true ∧
      (byteProgram s)[s.seq.bidx]? = some x ∧ s.seq.bidx + 1 = (byteProgram s).length ∧ s.seq.nib = .low ∧
      s.seq.ustep = .recover ∧ StrobeInv s ∧ s.state = .initializing) := by
  refine ⟨⟨{ busy cfgS [] with seq := ⟨0, .low, .recover⟩ }, ⟨.data, 0x48#8⟩, ?_⟩,
    ⟨{ busy cfgS [] with seq := ⟨0, .low, .recover⟩, fault := true, errCode := .textRange }, ⟨.data, 0x48#8⟩, ?_⟩,
    ⟨{ fresh cfgS [.waitReady] with seq := ⟨2, .low, .recover⟩, state := .initializing, driven := true }, ⟨.command, 0x01#8⟩, ?_⟩⟩ <;>
    (unfold StrobeInv; decide)

theorem witness_InitializationBytes : ∃ s : State, s.job = .init := ⟨fresh cfgS [], rfl⟩

/-- Both lines, the first and the last character of each. -/
theorem witness_RenderByteAddressing :
    ∃ s : State, s.job = .render ∧
      (∃ i < s.cfg.n, ∃ a, a ≤ 0xFF ∧ s.cfg.lineAddr[i]? = some a ∧ i = 0) ∧
      (∃ i < s.cfg.n, ∃ a, a ≤ 0xFF ∧ s.cfg.lineAddr[i]? = some a ∧ i + 1 = s.cfg.n) ∧
      (∃ i < s.cfg.n, ∃ k b, k = 1 ∧ 1 ≤ k ∧ k ≤ s.cfg.w ∧ Mem.read s.raster (i * s.cfg.w + k - 1) = some b) ∧
      (∃ i < s.cfg.n, ∃ k b, k = s.cfg.w ∧ 1 ≤ k ∧ k ≤ s.cfg.w ∧ Mem.read s.raster (i * s.cfg.w + k - 1) = some b) :=
  ⟨rendering cfgS [], rfl, ⟨0, by decide, 0x80, by decide⟩, ⟨1, by decide, 0xC0, by decide⟩, ⟨0, by decide, 1, 0x48#8, by decide⟩,
    ⟨1, by decide, 2, 0x20#8, by decide⟩⟩

theorem witness_OnlyLineStartsAreCommands :
    ∃ s : State, s.job = .render ∧
      (∃ a, a ≤ 0xFF ∧ s.cfg.lineAddr[0]? = some a ∧ s.rst = false ∧ s.running = true ∧ s.quietFor 20 = true ∧
        s.seq = ⟨0, .high, .setRs⟩) ∧
      (∃ i a, a ≤ 0xFF ∧ s.cfg.lineAddr[i]? = some a ∧ i + 1 = s.cfg.n) ∧
      (∃ k x, (byteProgram s)[k]? = some x ∧ x.mode = .command ∧ 0 < k) :=
  ⟨rendering cfgS [.waitReady], rfl, ⟨0x80, by decide⟩, ⟨1, 0xC0, by decide⟩, ⟨3, ⟨.command, 0xC0#8⟩, by decide⟩⟩

theorem witness_JobRunsToItsEnd :
    (∃ s : State, s.rst = false ∧ s.running = true ∧ s.quietFor (20 * (byteProgram s).length) = true ∧
      s.seq = ⟨0, .high, .setRs⟩ ∧ 1 ≤ (byteProgram s).length ∧ s.state = .busy ∧ s.fault = true) ∧
    (∃ s : State, s.rst = false ∧ s.running = true ∧ s.quietFor (20 * (byteProgram s).length) = true ∧
      s.seq = ⟨0, .high, .setRs⟩ ∧ 1 ≤ (byteProgram s).length ∧ s.state = .initializing) :=
  ⟨⟨{ rendering cfgS [] with fault := true, errCode := .textRange }, by decide⟩,
    ⟨{ fresh cfgS [.waitReady] with state := .initializing, driven := true }, by decide⟩⟩

theorem witness_JobEventCounts :
    (∃ (c : Cfg) (_ : List Transfer), c.pinsDistinct = true) ∧ (∃ s : State, s.job = .xfer) ∧
    (∃ s : State, s.job = .init) ∧ (∃ s : State, s.job = .render) :=
  ⟨⟨cfgS, initProgram, by decide⟩, ⟨busy cfgS [], rfl⟩, ⟨fresh cfgS [], rfl⟩, ⟨rendering cfgS [], rfl⟩⟩

theorem witness_XferRequestEmitsItsByte :
    ∃ (s : State) (m : Mode) (v : Byte) (rest : List HostAction), s.rst = false ∧ s.state = .ready ∧ s.fault = false ∧
      s.host = .cycle { req := some (encode (.xfer m v)) } :: rest ∧ quietHost false false 20 rest = true :=
  ⟨ready cfgS [present1 0x2148#16, .waitReady], .data, 0x48#8, [.waitReady], by decide⟩

theorem witness_InitRequestEmitsSixtyEvents :
    ∃ (s : State) (rest : List HostAction), s.rst = false ∧ s.state = .ready ∧ s.fault = false ∧
      s.host = .cycle { req := some 0x1000#16 } :: rest ∧ quietHost false false 60 rest = true :=
  ⟨ready cfgS [present1 0x1000#16, .pass, .waitReady], [.pass, .waitReady], by decide⟩

/-- With a text, and with the empty text. -/
theorem witness_RenderRequestTransmitsLayout :
    (∃ (s : State) (l : List Byte) (rest : List HostAction), s.rst = false ∧ s.state = .ready ∧ s.fault = false ∧
      s.host = .cycle { req := some 0x3000#16 } :: rest ∧
      quietHost false false (20 * (s.cfg.n * (s.cfg.w + 1))) rest = true ∧ l.length = s.textLen ∧
      (∀ a < s.textLen, Mem.read s.textBuf a = l[a]?) ∧ 1 ≤ s.cfg.n ∧ (∀ a ∈ s.cfg.lineAddr, a ≤ 0xFF) ∧ 0 < s.textLen) ∧
    (∃ (s : State) (l : List Byte) (rest : List HostAction), s.rst = false ∧ s.state = .ready ∧ s.fault = false ∧
      s.host = .cycle { req := some 0x3000#16 } :: rest ∧
      quietHost false false (20 * (s.cfg.n * (s.cfg.w + 1))) rest = true ∧ l.length = s.textLen ∧
      (∀ a < s.textLen, Mem.read s.textBuf a = l[a]?) ∧ 1 ≤ s.cfg.n ∧ (∀ a ∈ s.cfg.lineAddr, a ≤ 0xFF) ∧ s.textLen = 0) :=
  ⟨⟨{ ready cfgS [present1 0x3000#16, .waitReady] with textLen := 2, textBuf := [(0, 0x48#8), (1, 0x69#8)] },
      [0x48#8, 0x69#8], [.waitReady], by decide⟩,
    ⟨ready cfgS [present1 0x3000#16], [], [], by decide⟩⟩

/-- Two states with the same text and configuration that differ elsewhere. -/
theorem witness_RenderTwiceSameEvents :
    ∃ (s₁ s₂ : State) (rest₁ rest₂ : List HostAction),
      s₁.rst = false ∧ s₂.rst = false ∧ s₁.state = .ready ∧ s₂.state = .ready ∧ s₁.cfg = s₂.cfg ∧ 1 ≤ s₁.cfg.n ∧
      s₁.host = .cycle { req := some 0x3000#16 } :: rest₁ ∧ s₂.host = .cycle { req := some 0x3000#16 } :: rest₂ ∧
      quietHost s₁.fault false (20 * (s₁.cfg.n * (s₁.cfg.w + 1))) rest₁ = true ∧
      quietHost s₂.fault false (20 * (s₁.cfg.n * (s₁.cfg.w + 1))) rest₂ = true ∧ s₁.textLen = s₂.textLen ∧
      (∀ a < s₁.textLen, (Mem.read s₁.textBuf a).isSome = true ∧ Mem.read s₁.textBuf a = Mem.read s₂.textBuf a) ∧
      s₁.curVal ≠ s₂.curVal ∧ rest₁ ≠ rest₂ ∧ 0 < s₁.textLen :=
  ⟨{ ready cfgS [present1 0x3000#16] with textLen := 1, textBuf := [(0, 0x48#8)] },
    { ready cfgS [present1 0x3000#16, .waitReady] with
      textLen := 1, textBuf := [(0, 0x48#8), (1, 0x20#8)], curVal := 0x01#8 }, [], [.waitReady], by decide⟩

/-- A configuration broken by `W = 0`, one at the bounds with a rejected pin, and one at the bounds. -/
theorem witness_ConfigurationStep :
    (∃ s : State, s.rst = false ∧ s.quietFor 1 = true ∧ s.state = .config ∧
      ¬ (s.cfg.pins.Nodup ∧ (1 ≤ s.cfg.w ∧ s.cfg.w ≤ s.limits.wMax) ∧ (1 ≤ s.cfg.n ∧ s.cfg.n ≤ s.limits.nMax) ∧
        ∀ a ∈ s.cfg.lineAddr, a ≤ 0xFF)) ∧
    (∃ s : State, s.rst = false ∧ s.quietFor 1 = true ∧ s.state = .config ∧
      (s.cfg.pins.Nodup ∧ (1 ≤ s.cfg.w ∧ s.cfg.w ≤ s.limits.wMax) ∧ (1 ≤ s.cfg.n ∧ s.cfg.n ≤ s.limits.nMax) ∧
        ∀ a ∈ s.cfg.lineAddr, a ≤ 0xFF) ∧ ∃ p ∈ s.cfg.pins, p ∈ s.platRejects) ∧
    (∃ s : State, s.rst = false ∧ s.quietFor 1 = true ∧ s.state = .config ∧
      (s.cfg.pins.Nodup ∧ (1 ≤ s.cfg.w ∧ s.cfg.w ≤ s.limits.wMax) ∧ (1 ≤ s.cfg.n ∧ s.cfg.n ≤ s.limits.nMax) ∧
        ∀ a ∈ s.cfg.lineAddr, a ≤ 0xFF) ∧ ∀ p ∈ s.cfg.pins, p ∉ s.platRejects) :=
  ⟨⟨fresh { cfgS with w := 0 } [.waitReady], by decide⟩,
    ⟨{ fresh { cfgS with w := 1, lineAddr := [0xFF] } [] with platRejects := [18] }, by decide⟩,
    ⟨fresh { cfgS with w := 20, lineAddr := [0x00, 0xC0, 0x94, 0xFF] } [.pass], by decide⟩⟩

theorem witness_BootSequence :
    ∃ s : State, s.rst = false ∧ s.quietFor 61 = true ∧ s.state = .config ∧ s.fault = false ∧
      s.cfg.wellFormed s.limits = true ∧ ∀ p ∈ s.cfg.pins, p ∉ s.platRejects :=
  ⟨fresh cfgS [.waitReady, present1 0x3000#16], by decide⟩

theorem witness_ResetAssertion :
    (∃ (s : State) (rest : List HostAction), s.rst = false ∧ s.host = .assertReset :: rest ∧ s.trace = []) ∧
    (∃ (s : State) (rest : List HostAction), s.rst = false ∧ s.host = .assertReset :: rest ∧ s.trace ≠ []) ∧
    (∃ s : State, s.rst = true ∧ ∀ c rest, s.host ≠ .releaseReset c :: rest) :=
  ⟨⟨busy cfgS [.assertReset], [], by decide⟩, ⟨{ busy cfgS [.assertReset] with trace := [.wait] }, [], by decide⟩,
    ⟨inReset cfgS [present1 0x1000#16], rfl, fun _ _ h => by cases h⟩⟩

theorem witness_ReleaseSamplesConfiguration :
    (∃ (s : State) (c : Cfg) (rest : List HostAction), s.rst = true ∧ s.host = .releaseReset c :: rest ∧ s.cfg ≠ c) ∧
    (∃ (s : State) (c : Cfg) (rest : List HostAction), s.rst = false ∧ (s.req = none ∨ s.state ≠ .ready) ∧
      s.host = .releaseReset c :: rest ∧ s.cfg ≠ c) ∧
    (∃ (s : State) (c : Cfg) (w : Word) (rest : List HostAction), s.rst = false ∧ s.req = some w ∧ s.state = .ready ∧
      s.host = .releaseReset c :: rest ∧ decode w = some .init) ∧
    (∃ (s : State) (c : Cfg) (w : Word) (rest : List HostAction), s.rst = false ∧ s.req = some w ∧ s.state = .ready ∧
      s.host = .releaseReset c :: rest ∧ decode w = none) :=
  ⟨⟨inReset cfgS [.releaseReset cfgA], cfgA, [], by decide⟩, ⟨busy cfgS [.releaseReset cfgA], cfgA, [], by decide⟩,
    ⟨{ ready cfgS [.releaseReset cfgA] with req := some 0x1000#16 }, cfgA, 0x1000#16, [], by decide⟩,
    ⟨{ ready cfgS [.releaseReset cfgA] with req := some 0x4000#16 }, cfgA, 0x4000#16, [], by decide⟩⟩

theorem witness_RegistersAtReset :
    (∃ (s : State) (a : HostAction) (rest : List HostAction), s.host = a :: rest ∧ a = .assertReset ∧ s.rst = false) ∧
    (∃ (s : State) (a : HostAction) (rest : List HostAction), s.host = a :: rest ∧
      (∃ c, a = .releaseReset c) ∧ s.rst = true) :=
  ⟨⟨rendering cfgS [.assertReset], .assertReset, [], by decide⟩,
    ⟨inReset cfgS [.releaseReset cfgA], .releaseReset cfgA, [], rfl, ⟨cfgA, rfl⟩, rfl⟩⟩

theorem witness_ConfigurationFixedWhileReleased : ∃ s t : State, step s = .next t ∧ s.rst = false ∧ t ≠ s :=
  ⟨busy cfgS [], _, rfl, rfl, by decide⟩

theorem witness_PinLevelsFollowLatches :
    (∃ (s : State) (_ : Line), s.driven = true ∧ s.cfg.pinsDistinct = true) ∧
    (∃ (s : State) (_ : PinId), s.driven = false) ∧
    (∃ (s : State) (_ : Line), s.rst = false ∧ s.quietFor 1 = true ∧ s.state = .config ∧
      s.cfg.wellFormed s.limits = true ∧ ∀ p ∈ s.cfg.pins, p ∉ s.platRejects) :=
  ⟨⟨busy cfgS [], .d3, by decide⟩, ⟨fresh cfgS [], 7, rfl⟩, ⟨fresh cfgS [.waitReady], .e, by decide⟩⟩

theorem witness_StatusWordBits :
    ∃ s t : State, t.state = s.state ∧ t.initDone = s.initDone ∧ t.fault = s.fault ∧ t.errCode = s.errCode ∧ t ≠ s :=
  ⟨busy cfgS [], { busy cfgS [] with curVal := 0xFF#8 }, by decide⟩

/-- The last address in range and the first out of range, with no request and with one held during a job. -/
theorem witness_TextByteWrite :
    (∃ (s : State) (a : Nat) (b : Byte) (rest : List HostAction), s.rst = false ∧ (s.req = none ∨ s.state ≠ .ready) ∧
      s.host = .cycle { text := some (a, b) } :: rest ∧ a + 1 = s.cfg.textMax) ∧
    (∃ (s : State) (a : Nat) (b : Byte) (rest : List HostAction), s.rst = false ∧ (s.req = none ∨ s.state ≠ .ready) ∧
      s.host = .cycle { text := some (a, b) } :: rest ∧ a = s.cfg.textMax ∧ a < 2 ^ bitWidth s.cfg.textMax ∧
      s.req ≠ none) :=
  ⟨⟨ready cfgS [.cycle { text := some (3, 0x41#8) }], 3, 0x41#8, [], by decide⟩,
    ⟨{ busy cfgS [.cycle { text := some (4, 0x41#8) }] with req := some 0x1000#16 }, 4, 0x41#8, [], by decide⟩⟩

theorem witness_LengthWrite :
    (∃ (s : State) (n : Nat) (rest : List HostAction), s.rst = false ∧ (s.req = none ∨ s.state ≠ .ready) ∧
      s.host = .cycle { len := some n } :: rest ∧ n = s.cfg.textMax) ∧
    (∃ (s : State) (n : Nat) (rest : List HostAction), s.rst = false ∧ (s.req = none ∨ s.state ≠ .ready) ∧
      s.host = .cycle { len := some n } :: rest ∧ n = s.cfg.textMax + 1 ∧ n < 2 ^ bitWidth s.cfg.textMax) :=
  ⟨⟨ready cfgS [.cycle { len := some 4 }], 4, [], by decide⟩, ⟨busy cfgS [.cycle { len := some 5 }], 5, [], by decide⟩⟩

/-- An address at TEXT_MAX and a length one above it, in a state of each clause. -/
theorem witness_TextRangeFault :
    (∃ (s : State) (c : HostCycle) (rest : List HostAction), s.rst = false ∧ s.req = none ∧ s.host = .cycle c :: rest ∧
      (∃ a b, c = { text := some (a, b) } ∧ s.cfg.textMax ≤ a ∧ a < 2 ^ bitWidth s.cfg.textMax) ∧ s.state = .ready) ∧
    (∃ (s : State) (c : HostCycle) (rest : List HostAction), s.rst = false ∧ s.req = none ∧ s.host = .cycle c :: rest ∧
      (∃ n, c = { len := some n } ∧ s.cfg.textMax < n ∧ n < 2 ^ bitWidth s.cfg.textMax) ∧ s.state = .config) ∧
    (∃ (s : State) (c : HostCycle) (rest : List HostAction), s.rst = false ∧ s.state ≠ .ready ∧
      s.host = .cycle c :: rest ∧ (∃ n, c = { len := some n } ∧ s.cfg.textMax < n ∧ n < 2 ^ bitWidth s.cfg.textMax) ∧
      s.state = .busy) ∧
    (∃ (s : State) (c : HostCycle) (rest : List HostAction), s.rst = false ∧ s.state ≠ .ready ∧
      s.host = .cycle c :: rest ∧ (∃ n, c = { len := some n } ∧ s.cfg.textMax < n ∧ n < 2 ^ bitWidth s.cfg.textMax) ∧
      s.state = .fault) :=
  ⟨⟨ready cfgS [.cycle { text := some (4, 0x41#8) }], _, [], rfl, rfl, rfl, ⟨4, 0x41#8, rfl, by decide⟩, rfl⟩,
    ⟨fresh cfgS [.cycle { len := some 5 }], _, [], rfl, rfl, rfl, ⟨5, rfl, by decide⟩, rfl⟩,
    ⟨busy cfgS [.cycle { len := some 5 }], _, [], rfl, by decide, rfl, ⟨5, rfl, by decide⟩, rfl⟩,
    ⟨faulted cfgS [.cycle { len := some 5 }], _, [], rfl, by decide, rfl, ⟨5, rfl, by decide⟩, rfl⟩⟩

theorem witness_SameCycleOrder :
    (∃ (s : State) (x : Option (Nat × Byte)) (y : Option Nat) (r : Option Word) (w : Word) (rest : List HostAction),
      s.rst = false ∧ s.state = .ready ∧ (∀ a b, x = some (a, b) → a < s.cfg.textMax) ∧
      (∀ n, y = some n → n ≤ s.cfg.textMax) ∧ r.or s.req = some w ∧
      s.host = .cycle { text := x, len := y, req := r } :: rest ∧ decode w = some .render ∧ r ≠ none) ∧
    (∃ (s : State) (x : Option (Nat × Byte)) (y : Option Nat) (r : Option Word) (w : Word) (rest : List HostAction),
      s.rst = false ∧ s.state = .ready ∧ (∀ a b, x = some (a, b) → a < s.cfg.textMax) ∧
      (∀ n, y = some n → n ≤ s.cfg.textMax) ∧ r.or s.req = some w ∧
      s.host = .cycle { text := x, len := y, req := r } :: rest ∧ decode w = none ∧ r = none) ∧
    (∃ (s : State) (a : Nat) (b : Byte) (x : Option Nat) (r : Option Word) (rest : List HostAction),
      s.rst = false ∧ s.state = .ready ∧ s.cfg.textMax ≤ a ∧ a < 2 ^ bitWidth s.cfg.textMax ∧
      s.host = .cycle { text := some (a, b), len := x, req := r } :: rest ∧ r ≠ none) ∧
    (∃ (s : State) (n : Nat) (x : Option (Nat × Byte)) (r : Option Word) (rest : List HostAction),
      s.rst = false ∧ s.state = .ready ∧ s.cfg.textMax < n ∧ n < 2 ^ bitWidth s.cfg.textMax ∧
      s.host = .cycle { text := x, len := some n, req := r } :: rest ∧ r = none ∧ s.req ≠ none) :=
  ⟨⟨ready cfgS [.cycle { text := some (3, 0x41#8), len := some 4, req := some 0x3000#16 }], some (3, 0x41#8), some 4,
      some 0x3000#16, 0x3000#16, [], rfl, rfl, (fun _ _ h => by cases h; decide),
      (fun _ h => by cases h; decide), by decide⟩,
    ⟨{ ready cfgS [.cycle { len := some 4 }] with req := some 0x4000#16 }, none, some 4, none, 0x4000#16, [],
      rfl, rfl, (fun _ _ h => by cases h), (fun _ h => by cases h; decide), by decide⟩,
    ⟨ready cfgS [.cycle { text := some (4, 0x41#8), req := some 0x4000#16 }], 4, 0x41#8, none, some 0x4000#16, [],
      by decide⟩,
    ⟨{ ready cfgS [.cycle { len := some 5 }] with req := some 0x3000#16 }, 5, none, none, [], by decide⟩⟩

/-- A number that the port carries, and one that it does not. -/
theorem witness_TextPortCarriesItsWidth :
    (∃ x k : Nat, x < 2 ^ k) ∧ (∃ (c : Cfg) (n : Nat), n ≤ c.textMax ∧ n = c.textMax) ∧
    (∃ (s : State) (c : HostCycle) (rest : List HostAction), s.host = .cycle c :: rest ∧
      ∃ n, c.len = some n ∧ 2 ^ bitWidth s.cfg.textMax ≤ n) :=
  ⟨⟨4, 3, by decide⟩, ⟨cfgS, 4, by decide⟩,
    ready cfgS [.cycle { len := some 9 }], { len := some 9 }, [], rfl, 9, rfl, by decide⟩

/-- A host write during a RENDER, and the RENDER's own step. -/
theorem witness_ByteProgramFixedDuringJob :
    (∃ s t : State, s.running = true ∧ t.running = true ∧ step s = .next t ∧ t.textBuf ≠ s.textBuf) ∧
    (∃ s t : State, s.running = true ∧ t.running = true ∧ step s = .next t ∧ t.seq ≠ s.seq) :=
  ⟨⟨rendering cfgS [.cycle { text := some (0, 0x41#8) }], _, rfl, rfl, rfl, by decide⟩,
    ⟨rendering cfgS [], _, rfl, rfl, rfl, by decide⟩⟩

theorem witness_OnlyResetClearsFault :
    (∃ s t : State, s.rst = false ∧ s.fault = true ∧ (∀ rest, s.host ≠ .assertReset :: rest) ∧ step s = .next t ∧
      s.state = .fault) ∧
    (∃ (s : State) (rest : List HostAction), s.rst = false ∧ s.host = .assertReset :: rest) :=
  ⟨⟨faulted cfgS [present1 0x1000#16], _, rfl, rfl, (fun _ h => by cases h), rfl, rfl⟩,
    ⟨faulted cfgS [.assertReset], [], by decide⟩⟩

theorem witness_FaultStateIsStuck :
    (∃ s t : State, s.rst = false ∧ s.state = .fault ∧ (∀ rest, s.host ≠ .assertReset :: rest) ∧ step s = .next t) ∧
    (∃ s : State, s.rst = false ∧ s.state = .fault ∧ s.quietFor 1 = true) ∧
    (∃ (s : State) (a : Nat) (b : Byte) (rest : List HostAction), s.rst = false ∧ s.state = .fault ∧
      a < s.cfg.textMax ∧ s.host = .cycle { text := some (a, b) } :: rest) :=
  ⟨⟨faulted cfgS [present1 0x1000#16], _, rfl, rfl, (fun _ h => by cases h), rfl⟩, ⟨faulted cfgS [.pass], by decide⟩,
    ⟨faulted cfgS [.cycle { text := some (3, 0x41#8) }], 3, 0x41#8, [], by decide⟩⟩

theorem witness_SplitLaw : (∃ a : List Byte, 0x0A#8 ∉ a ∧ a ≠ []) ∧ ∃ a _b : List Byte, 0x0A#8 ∉ a :=
  ⟨⟨[0x41#8], by decide⟩, [], [0x0A#8], by decide⟩

/-- The last column that the line fills and the first that it does not. -/
theorem witness_RowLayout :
    ∃ (l : List Byte) (w : Nat), (∃ k < w, k < l.length ∧ k + 1 = l.length) ∧ ∃ k < w, l.length ≤ k ∧ k = l.length :=
  ⟨[0x41#8, 0x42#8], 3, ⟨1, by decide⟩, 2, by decide⟩

theorem witness_FormatterLaw :
    ∃ (t : List Byte) (_ n : Nat), (∃ r, r ∈ format (split t) 3 n) ∧ (∃ i, i < min (split t).length n) ∧
      ∃ i < n, min (split t).length n ≤ i :=
  ⟨[0x41#8], 3, 2, ⟨[0x41#8, 0x20#8, 0x20#8], by decide⟩, ⟨0, by decide⟩, 1, by decide⟩

theorem witness_DurationLowerBounds :
    (∃ s : State, s.job = .xfer) ∧ (∃ s : State, s.job = .init) ∧ ∃ s : State, s.job = .render :=
  ⟨⟨busy cfgS [], rfl⟩, ⟨fresh cfgS [], rfl⟩, rendering cfgS [], rfl⟩

theorem witness_TraceGrowsByAtMostOneEvent : ∃ s t : State, step s = .next t ∧ t.trace ≠ s.trace :=
  ⟨busy cfgS [], _, rfl, by decide⟩

theorem witness_NothingInterruptsAJob :
    (∃ s t : State, s.rst = false ∧ s.running = true ∧ (∀ rest, s.host ≠ .assertReset :: rest) ∧ step s = .next t ∧
      t.trace = s.trace) ∧
    (∃ s t : State, s.rst = false ∧ s.running = true ∧ (∀ rest, s.host ≠ .assertReset :: rest) ∧ step s = .next t ∧
      t.trace ≠ s.trace) :=
  ⟨⟨busy cfgS [present1 0x1000#16], _, rfl, rfl, (fun _ h => by cases h), rfl, by decide⟩,
    ⟨busy cfgS [], _, rfl, rfl, (fun _ h => by cases h), rfl, by decide⟩⟩

/-- A BUSY state that meets the block's invariant. -/
theorem busy_blockInv : BlockInv (busy cfgS []) :=
  ⟨by decide, ⟨by decide, rfl, rfl⟩, by decide, by decide, by decide, by decide, by decide, by decide, by decide, by decide⟩

theorem witness_RunningSequencerHasAStep :
    ∃ s : State, BlockInv s ∧ s.rst = false ∧ s.running = true ∧ s.quietFor 1 = true :=
  ⟨busy cfgS [], busy_blockInv, by decide⟩

theorem witness_RegistersFitTheirWidths : ∃ s : State, BlockInv s := ⟨busy cfgS [], busy_blockInv⟩

theorem witness_NoStepIsRefused : ∃ (s : State) (_ : Refusal), BlockInv s :=
  ⟨busy cfgS [], .pointerPastJob, busy_blockInv⟩

theorem witness_StepKeepsBlockInv : ∃ s t : State, BlockInv s ∧ step s = .next t ∧ t ≠ s :=
  ⟨busy cfgS [], _, busy_blockInv, rfl, by decide⟩

theorem witness_StepKeepsMemoryInv : ∃ s t : State, MemoryInv s ∧ step s = .next t ∧ t.textBuf ≠ s.textBuf :=
  ⟨{ busy cfgS [.cycle { text := some (0, 0x41#8) }] with textBuf := [(1, 0x42#8)] }, _, ⟨rfl, rfl⟩, rfl, by decide⟩

/-- The step that raises E. -/
theorem witness_StepKeepsStrobeLaw : ∃ s t : State, StrobeInv s ∧ step s = .next t ∧ t.out.e = true :=
  ⟨{ busy cfgS [] with seq := ⟨0, .high, .raiseE⟩ }, _, by unfold StrobeInv; decide, rfl, by decide⟩

/-- The step that sets D3 after RS, D0, D1 and D2. -/
theorem witness_StepKeepsSetupAndHold :
    ∃ s t : State, LinesInv s ∧ s.running = true ∧ step s = .next t ∧ s.seq.ustep = .setD3 :=
  ⟨{ busy cfgS [] with seq := ⟨0, .high, .setD3⟩, out := ⟨true, false, false, false, true, false⟩ }, _,
    fun _ x hx l hl => by
      obtain rfl : ⟨.data, 0x48#8⟩ = x := by simpa [byteProgram, busy] using hx
      simp only [linesSetBefore, List.mem_cons, List.not_mem_nil, or_false] at hl
      rcases hl with rfl | rfl | rfl | rfl <;> rfl,
    rfl, rfl, rfl⟩

theorem witness_StepKeepsTraceInv : ∃ s t : State, BlockInv s ∧ TraceInv s ∧ step s = .next t ∧ t.trace ≠ s.trace :=
  ⟨{ busy cfgS [] with trace := [.configure (pinSet cfgS)] }, _,
    ⟨by decide, ⟨by decide, rfl, rfl⟩, by decide, by decide, by decide, by decide, by decide, by decide, by decide, by decide⟩,
    ⟨rfl, fun l => by cases l <;> rfl, fun h => by cases h⟩, rfl, by decide⟩

end Sys2Proof.Tests
end

section
/-! SUPPORT. The block's invariant: what a reset state, a fault, the start of a job and a job step do to it, and that
every step keeps it. -/

namespace Sys2Proof.Machine

variable {s : State}

/-! What the invariant gives -/

theorem wellFormed_bounds {lim : Limits} {c : Cfg} (h : c.wellFormed lim = true) :
    c.pinsDistinct = true ∧ 1 ≤ c.w ∧ c.w ≤ lim.wMax ∧ 1 ≤ c.n ∧ c.n ≤ lim.nMax := by
  simp only [Cfg.wellFormed, Cfg.widthOk, Cfg.linesOk, Bool.and_eq_true, decide_eq_true_eq] at h
  obtain ⟨⟨⟨hpins, hw, hwm⟩, hn, hnm⟩, -⟩ := h
  exact ⟨hpins, hw, hwm, hn, hnm⟩

/-- A byte program has at most one byte more than the largest `BIDX`, `N_MAX * (W_MAX + 1)` (10_state.md R20). -/
theorem length_byteProgram_le (hc : s.cfg.wellFormed s.limits = true) :
    (byteProgram s).length ≤ s.limits.nMax * (s.limits.wMax + 1) + 1 := by
  obtain ⟨-, hw, hwm, hn, hnm⟩ := wellFormed_bounds hc
  have hle : s.cfg.n * (s.cfg.w + 1) ≤ s.limits.nMax * (s.limits.wMax + 1) := Nat.mul_le_mul hnm (by omega)
  have htwo : 1 * (1 + 1) ≤ s.cfg.n * (s.cfg.w + 1) := Nat.mul_le_mul hn (by omega)
  unfold byteProgram
  cases s.job with
  | none => exact Nat.zero_le _
  | init => simp only [initProgram, List.length_cons, List.length_nil]; omega
  | xfer => simp only [List.length_cons, List.length_nil]; omega
  | render => simp only [length_renderProgram]; omega

/-- The advance stays inside the byte program (10_state.md R29). -/
theorem advance_bidx_lt {len : Nat} {q r : Seq} (h : advance len q = some r) (hq : q.bidx < len) : r.bidx < len := by
  unfold advance at h
  split at h
  · cases h; exact hq
  · split at h
    · cases h; exact hq
    · split at h
      · cases h; assumption
      · cases h

theorem running_of_state (hs : s.state = .initializing ∨ s.state = .busy) : s.running = true := by
  simpa [State.running, State.statusBusy] using hs

@[simp] theorem perform_rst (o : LineOp) (s : State) : (perform o s).rst = s.rst := by rw [perform_eq]
@[simp] theorem perform_state (o : LineOp) (s : State) : (perform o s).state = s.state := by rw [perform_eq]
@[simp] theorem perform_seq (o : LineOp) (s : State) : (perform o s).seq = s.seq := by rw [perform_eq]
@[simp] theorem perform_running (o : LineOp) (s : State) : (perform o s).running = s.running := by
  simp [State.running, State.statusBusy]

/-- What goes with the registers of a job in flight (10_state.md R23 to R25). -/
theorem BlockInv.job_facts (h : BlockInv s) (hj : s.running = true) :
    s.driven = true ∧ (s.initDone || decide (s.state = .initializing)) = true := by
  have hp := h.perState
  rcases state_of_running hj with hs | hs <;> simp only [stateInv, hs] at hp
  · obtain ⟨-, -, hd⟩ := hp
    exact ⟨hd, by simp [hs]⟩
  · obtain ⟨-, hi, hd⟩ := hp
    exact ⟨hd, by simp [hi]⟩

/-! The parts of a step -/

/-- A state whose registers all hold their reset values meets the invariant (10_state.md R44). -/
theorem blockInv_of_reset (h : resetRegisters s = s) : BlockInv s := by
  rw [← h]
  exact {
    inReset := fun _ => rfl
    perState := ⟨rfl, rfl, rfl, rfl⟩
    errCode := by simp
    faultInJob := by simp
    configured := by simp
    pointer := by simp [State.running, State.statusBusy]
    bidx := Nat.zero_le _
    textLen := Nat.zero_le _
    textBuf := by simp
    rasterWritten := by simp }

/-- A fault keeps the invariant, with rst released, if during a job it is TEXT_RANGE (60_exceptions.md R136, R137). -/
theorem blockInv_raiseFault {c : ErrCode} (h : BlockInv s) (hrst : s.rst = false) (hc : c ≠ .noFault)
    (hj : s.running = true → c = .textRange) : BlockInv (raiseFault c s) := by
  have hcode : (if s.fault then s.errCode else c) ≠ .noFault := by
    split
    · rename_i hf
      exact fun he => absurd (h.errCode.mpr he) (by simp [hf])
    · exact hc
  by_cases hs : s.state = .config ∨ s.state = .ready
  · have hd : s.driven = s.initDone := by
      have hp := h.perState
      rcases hs with hs | hs <;> simp_all [stateInv]
    simp only [raiseFault_eq, if_pos hs]
    exact { h with
      inReset := by simp [hrst]
      perState := ⟨rfl, rfl, hd⟩
      errCode := by simpa using hcode
      faultInJob := by simp [State.running, State.statusBusy]
      pointer := by simp [State.running, State.statusBusy]
      rasterWritten := by simp }
  · simp only [raiseFault_eq, if_neg hs]
    exact { h with
      inReset := by simp [hrst]
      perState := by
        have hp := h.perState
        rcases hst : s.state <;> simp_all [stateInv]
      errCode := by simpa using hcode
      faultInJob := fun hrun _ => by
        dsimp only
        split
        · exact h.faultInJob hrun ‹_›
        · exact hj hrun
      pointer := h.pointer }

theorem blockInv_textWrite (a : Nat) (b : Byte) (h : BlockInv s) (hrst : s.rst = false) :
    BlockInv (textWrite a b s) := by
  rcases textWrite_cases a b s with ⟨ha, e⟩ | ⟨-, e⟩ <;> rw [e]
  · exact { h with
      inReset := by simp [hrst]
      textBuf := fun x hx => by
        rcases Mem.mem_write hx with rfl | hx
        · exact ha
        · exact h.textBuf x hx }
  · exact blockInv_raiseFault h hrst (by simp) fun _ => rfl

theorem blockInv_lengthWrite (n : Nat) (h : BlockInv s) (hrst : s.rst = false) : BlockInv (lengthWrite n s) := by
  rcases lengthWrite_cases n s with ⟨hn, e⟩ | ⟨-, e⟩ <;> rw [e]
  · exact { h with
      inReset := by simp [hrst]
      textLen := hn }
  · exact blockInv_raiseFault h hrst (by simp) fun _ => rfl

/-- The start of a job meets the invariant: no fault is pending, the configuration driven is well formed, the job has a
byte to send, and a RENDER finds its raster written. -/
theorem blockInv_startJob {b : BlockState} {j : Job} (hrst : s.rst = false) (hfault : s.fault = false)
    (hcode : s.errCode = .noFault) (hstate : stateInv (startJob b j s)) (hc : s.cfg.wellFormed s.limits = true)
    (hlen : 0 < (byteProgram (startJob b j s)).length) (htextLen : s.textLen ≤ s.cfg.textMax)
    (htextBuf : ∀ c ∈ s.textBuf, c.1 < s.cfg.textMax)
    (hraster : j = .render → ∀ a < s.cfg.n * s.cfg.w, (Mem.read s.raster a).isSome = true) :
    BlockInv (startJob b j s) where
  inReset := by simp [hrst]
  perState := hstate
  errCode := by simp [hfault, hcode]
  faultInJob := by simp [hfault]
  configured := fun _ => hc
  pointer := fun _ => hlen
  bidx := Nat.zero_le _
  textLen := htextLen
  textBuf := htextBuf
  rasterWritten := hraster

/-- In READY the pins are driven, under a well-formed configuration, and no fault is pending. -/
theorem BlockInv.ready_facts (h : BlockInv s) (hs : s.state = .ready) :
    s.initDone = true ∧ s.fault = false ∧ s.errCode = .noFault ∧ s.driven = true ∧
      s.cfg.wellFormed s.limits = true := by
  have hp := h.perState
  simp only [stateInv, hs] at hp
  obtain ⟨-, hi, hf, hd⟩ := hp
  exact ⟨hi, hf, h.errCode.mp hf, hd, h.configured hd⟩

/-- The acceptance of a request keeps the invariant (40_transfer.md R95). -/
theorem blockInv_exec {i : Instr} {t : State} (h : BlockInv s) (hrst : s.rst = false) (he : exec i s = .next t) :
    BlockInv t := by
  rcases exec_cases he with ⟨-, rfl⟩ | ⟨hs, hstart⟩
  · exact h
  obtain ⟨hi, hf, hcode, hd, hc⟩ := h.ready_facts hs
  rcases hstart with ⟨-, rfl⟩ | ⟨m, v, -, rfl⟩ | ⟨l, -, -, rfl⟩
  · exact blockInv_startJob hrst hf hcode ⟨by simp, hi, hd⟩ hc (by simp [byteProgram, initProgram])
      h.textLen h.textBuf (by simp)
  · exact blockInv_startJob hrst hf hcode ⟨by simp, hi, hd⟩ hc (by simp [byteProgram])
      h.textLen h.textBuf (by simp)
  · obtain ⟨-, -, -, hn, -⟩ := wellFormed_bounds hc
    refine blockInv_startJob hrst hf hcode ⟨by simp, hi, hd⟩ hc ?_ h.textLen h.textBuf fun _ a ha => ?_
    · simp [byteProgram, length_renderProgram, show 0 < s.cfg.n from hn]
    · rw [rasterize_raster, isSome_read_storeRows]
      exact decide_eq_true ha

/-- The configuration step keeps the invariant (70_reset_and_hazards.md R156). -/
theorem blockInv_configStep (h : BlockInv s) (hrst : s.rst = false) (hs : s.state = .config) :
    BlockInv (configStep s) := by
  have hidle : s.running = false := by simp [State.running, State.statusBusy, hs]
  rcases configStep_cases s with ⟨-, e⟩ | ⟨-, -, e⟩ | ⟨hc, -, e⟩ <;> rw [e]
  · exact blockInv_raiseFault h hrst (by simp) (by simp [hidle])
  · exact blockInv_raiseFault h hrst (by simp) (by simp [hidle])
  · have hp := h.perState
    simp only [stateInv, hs] at hp
    obtain ⟨-, hi, hf, -⟩ := hp
    exact blockInv_startJob hrst hf (h.errCode.mp hf) ⟨rfl, hi, rfl⟩ hc (by simp [byteProgram, initProgram])
      h.textLen h.textBuf (by simp)

/-- Performing a micro-step keeps the invariant: it changes no register that the invariant speaks of. -/
theorem blockInv_perform (o : LineOp) (h : BlockInv s) (hrst : s.rst = false) : BlockInv (perform o s) := by
  have hpointer : (perform o s).running = true → (perform o s).seq.bidx < (byteProgram (perform o s)).length := by
    rw [byteProgram_perform, perform_running, perform_seq]
    exact h.pointer
  rw [perform_eq] at hpointer ⊢
  exact { h with
    inReset := by simp [hrst]
    pointer := hpointer }

/-- The advance of the pointer keeps the invariant (10_state.md R29). -/
theorem blockInv_advance {q : Seq} (h : BlockInv s) (hrst : s.rst = false) (hj : s.running = true)
    (ha : advance (byteProgram s).length s.seq = some q) : BlockInv { s with seq := q } := by
  have hlt : q.bidx < (byteProgram s).length := advance_bidx_lt ha (h.pointer hj)
  have hle := length_byteProgram_le (h.configured (h.job_facts hj).1)
  exact { h with
    inReset := by simp [hrst]
    pointer := fun _ => hlt
    bidx := by dsimp only; omega }

/-- The end of a job keeps the invariant (40_transfer.md R99). -/
theorem blockInv_endJob (h : BlockInv s) (hrst : s.rst = false) (hj : s.running = true) : BlockInv (endJob s) := by
  obtain ⟨hd, hi⟩ := h.job_facts hj
  exact { h with
    inReset := by simp [hrst]
    perState := by
      unfold stateInv
      cases hf : s.fault <;> simp [hf, hd, hi]
    faultInJob := by simp
    pointer := by simp
    rasterWritten := by simp }

/-- What follows the event of a job step keeps the invariant (10_state.md R28). -/
theorem blockInv_moveOn (h : BlockInv s) (hrst : s.rst = false) (hj : s.running = true) :
    BlockInv (moveOn (byteProgram s).length s) := by
  rcases moveOn_cases (byteProgram s).length s with ⟨q, ha, e⟩ | ⟨-, e⟩ <;> rw [e]
  · exact blockInv_advance h hrst hj ha
  · exact blockInv_endJob h hrst hj

/-- A job step keeps the invariant (40_transfer.md R98). -/
theorem blockInv_jobStep (o : LineOp) (h : BlockInv s) (hrst : s.rst = false) (hj : s.running = true) :
    BlockInv (moveOn (byteProgram s).length (perform o s)) := by
  rw [← byteProgram_perform o s]
  exact blockInv_moveOn (blockInv_perform o h hrst) (by rwa [perform_rst]) (by rwa [perform_running])

/-- The sequencer's step keeps the invariant. -/
theorem blockInv_sequencerStep {t : State} (h : BlockInv s) (hrst : s.rst = false)
    (hq : sequencerStep s = .next t) : BlockInv t := by
  rcases sequencerStep_cases hq with ⟨hs, rfl⟩ | ⟨hs, _, -, rfl⟩ | ⟨-, rfl⟩
  · exact blockInv_configStep h hrst hs
  · exact blockInv_jobStep _ h hrst (running_of_state hs)
  · exact h

/-- The host's script and its request line are no part of the invariant. -/
theorem blockInv_hostMoves (hs : List HostAction) (r : Option Word) (h : BlockInv s) :
    BlockInv { s with host := hs, req := r } :=
  { h with
    inReset := fun hrst => congrArg (fun u : State => { u with host := hs, req := r }) (h.inReset hrst) }

/-- The block's invariant is kept by every transition but the two of reset. -/
theorem kept_blockInv : Kept BlockInv where
  hostMoves _ hs r h := blockInv_hostMoves hs r h
  textWrite a b _ hrst h := blockInv_textWrite a b h hrst
  lengthWrite n _ hrst h := blockInv_lengthWrite n h hrst
  exec _ _ _ hrst _ he h := blockInv_exec h hrst he
  illegal s hrst hs h := blockInv_raiseFault h hrst (by simp) (by simp [State.running, State.statusBusy, hs])
  sequencer _ _ hrst hq h := blockInv_sequencerStep h hrst hq

theorem resetRegisters_assertReset (hrst : s.rst = false) : resetRegisters (assertReset s) = assertReset s := by
  simp [assertReset, hrst, resetRegisters]

theorem resetRegisters_releaseReset (c : Cfg) (s : State) : resetRegisters (releaseReset c s) = releaseReset c s := by
  simp [releaseReset, resetRegisters]

theorem blockInv_step {t : State} (h : BlockInv s) (hstep : step s = .next t) : BlockInv t :=
  kept_blockInv.step (fun hrst _ _ => blockInv_of_reset (resetRegisters_assertReset hrst))
    (fun _ c _ _ => blockInv_of_reset (resetRegisters_releaseReset c _)) hstep h

/-- Settles O51: each transition of `Kept` keeps the invariant, and both transitions of reset establish it. -/
theorem stepKeepsBlockInv : Obligations.StepKeepsBlockInv := fun _ _ => blockInv_step

end Sys2Proof.Machine
end

section
/-! SUPPORT. The trace, the latches and the configuration along a step: what the host's ports and the acceptance of a
request leave alone, that a step appends one event at most, and that trace, latches and driving stay in agreement. -/

namespace Sys2Proof.Machine

variable {s t u : State}

/-- What the host's ports, the acceptance of a request and a fault all leave alone: the hardware, the configuration, the
pins and the trace. -/
structure PortFrame (s t : State) : Prop where
  limits : t.limits = s.limits
  platRejects : t.platRejects = s.platRejects
  cfg : t.cfg = s.cfg
  out : t.out = s.out
  driven : t.driven = s.driven
  trace : t.trace = s.trace

theorem PortFrame.refl (s : State) : PortFrame s s := ⟨rfl, rfl, rfl, rfl, rfl, rfl⟩

theorem PortFrame.trans (h : PortFrame s t) (k : PortFrame t u) : PortFrame s u :=
  ⟨k.limits.trans h.limits, k.platRejects.trans h.platRejects, k.cfg.trans h.cfg, k.out.trans h.out,
    k.driven.trans h.driven, k.trace.trans h.trace⟩

theorem portFrame_raiseFault (c : ErrCode) (s : State) : PortFrame s (raiseFault c s) := by
  rw [raiseFault_eq]; exact ⟨rfl, rfl, rfl, rfl, rfl, rfl⟩

theorem portFrame_textWrite (a : Nat) (b : Byte) (s : State) : PortFrame s (textWrite a b s) := by
  rcases textWrite_cases a b s with ⟨-, e⟩ | ⟨-, e⟩ <;> rw [e]
  · exact ⟨rfl, rfl, rfl, rfl, rfl, rfl⟩
  · exact portFrame_raiseFault _ s

theorem portFrame_lengthWrite (n : Nat) (s : State) : PortFrame s (lengthWrite n s) := by
  rcases lengthWrite_cases n s with ⟨-, e⟩ | ⟨-, e⟩ <;> rw [e]
  · exact ⟨rfl, rfl, rfl, rfl, rfl, rfl⟩
  · exact portFrame_raiseFault _ s

theorem portFrame_applyText (c : HostCycle) (s : State) : PortFrame s (applyText c s) := by
  unfold applyText
  split
  · exact portFrame_textWrite _ _ s
  · exact .refl s

theorem portFrame_applyLength (c : HostCycle) (s : State) : PortFrame s (applyLength c s) := by
  unfold applyLength
  split
  · exact portFrame_lengthWrite _ s
  · exact .refl s

theorem portFrame_applyWrites (c : HostCycle) (s : State) : PortFrame s (applyWrites c s) :=
  (portFrame_applyText c s).trans (portFrame_applyLength c _)

theorem portFrame_exec {i : Instr} (h : exec i s = .next t) : PortFrame s t := by
  rcases exec_cases h with ⟨-, rfl⟩ | ⟨-, ⟨-, rfl⟩ | ⟨m, v, -, rfl⟩ | ⟨l, -, -, rfl⟩⟩ <;>
    exact ⟨rfl, rfl, rfl, rfl, rfl, rfl⟩

/-! The configuration -/

/-- What follows the event of a job step changes neither the pins nor the trace. -/
theorem portFrame_moveOn (len : Nat) (s : State) : PortFrame s (moveOn len s) := by
  rcases moveOn_cases len s with ⟨q, -, e⟩ | ⟨-, e⟩ <;> rw [e] <;> exact ⟨rfl, rfl, rfl, rfl, rfl, rfl⟩

/-- The sequencer never changes the hardware or the configuration. -/
theorem sequencerStep_cfg (h : sequencerStep s = .next t) :
    t.limits = s.limits ∧ t.platRejects = s.platRejects ∧ t.cfg = s.cfg := by
  rcases sequencerStep_cases h with ⟨-, rfl⟩ | ⟨-, x, -, rfl⟩ | ⟨-, rfl⟩
  · rcases configStep_cases s with ⟨-, e⟩ | ⟨-, -, e⟩ | ⟨-, -, e⟩ <;> rw [e] <;> simp [raiseFault_eq]
  · have hm := portFrame_moveOn (byteProgram s).length (perform (lineOp x s.seq.nib s.seq.ustep) s)
    rw [perform_eq] at hm ⊢
    exact ⟨hm.limits, hm.platRejects, hm.cfg⟩
  · exact ⟨rfl, rfl, rfl⟩

/-- `t` has the hardware of `s` and, if `s` is out of reset, its configuration. -/
def SameConfig (s t : State) : Prop :=
  t.limits = s.limits ∧ t.platRejects = s.platRejects ∧ (s.rst = false → t.cfg = s.cfg)

theorem SameConfig.next (h : SameConfig s t) (hl : u.limits = t.limits) (hp : u.platRejects = t.platRejects)
    (hc : u.cfg = t.cfg) : SameConfig s u :=
  ⟨hl.trans h.1, hp.trans h.2.1, fun hr => hc.trans (h.2.2 hr)⟩

theorem SameConfig.port (h : SameConfig s t) (k : PortFrame t u) : SameConfig s u :=
  h.next k.limits k.platRejects k.cfg

theorem kept_sameConfig (s : State) : Kept (SameConfig s) where
  hostMoves _ _ _ h := h
  textWrite a b _ _ h := h.port (portFrame_textWrite a b _)
  lengthWrite n _ _ h := h.port (portFrame_lengthWrite n _)
  exec _ _ _ _ _ he h := h.port (portFrame_exec he)
  illegal _ _ _ h := h.port (portFrame_raiseFault _ _)
  sequencer _ _ _ hq h := by
    obtain ⟨hl, hp, hc⟩ := sequencerStep_cfg hq
    exact h.next hl hp hc

/-- Settles O31: of the transitions only the release of an asserted rst changes the configuration. -/
theorem configurationFixedWhileReleased : Obligations.ConfigurationFixedWhileReleased := by
  intro s t h
  refine (kept_sameConfig s).step (fun hrst rest _ => ?_) (fun hrst c rest _ => ?_) h ⟨rfl, rfl, fun _ => rfl⟩
  · simp [SameConfig, assertReset, hrst]
  · simp [SameConfig, releaseReset, hrst]

/-! The trace -/

/-- The sequencer's step appends one event at most (10_state.md R18). -/
theorem sequencerStep_trace (h : sequencerStep s = .next t) :
    t.trace = s.trace ∨ ∃ e, t.trace = s.trace ++ [e] := by
  rcases sequencerStep_cases h with ⟨-, rfl⟩ | ⟨-, x, -, rfl⟩ | ⟨-, rfl⟩
  · rcases configStep_cases s with ⟨-, e⟩ | ⟨-, -, e⟩ | ⟨-, -, e⟩ <;> rw [e]
    · exact .inl (portFrame_raiseFault _ s).trace
    · exact .inl (portFrame_raiseFault _ s).trace
    · exact .inr ⟨_, rfl⟩
  · rw [(portFrame_moveOn _ _).trace, perform_eq]
    exact .inr ⟨_, rfl⟩
  · exact .inl rfl

/-- Settles O46: an assertion of rst and a sequencer step append one event at most, every other transition none. -/
theorem traceGrowsByAtMostOneEvent : Obligations.TraceGrowsByAtMostOneEvent := by
  intro s t h
  cases step_transition h with
  | assertReset rest hrst _ =>
    by_cases htr : s.trace.isEmpty = true
    · exact .inl (by simp [assertReset, hrst, htr])
    · exact .inr ⟨.reset, by simp [assertReset, hrst, htr]⟩
  | releaseReset c rest _ _ => exact .inl rfl
  | hostMoves rest r => exact .inl rfl
  | writes c rest r _ => exact .inl (portFrame_applyWrites c { s with host := rest }).trace
  | accepts c rest i t _ _ he =>
    exact .inl ((portFrame_exec he).trace.trans (portFrame_applyWrites c { s with host := rest }).trace)
  | illegal c rest _ _ =>
    exact .inl ((portFrame_raiseFault _ _).trace.trans (portFrame_applyWrites c { s with host := rest }).trace)
  | sequencer rest t _ hq => exact sequencerStep_trace (s := { s with host := rest }) hq

/-! The agreement of latches, driving and trace -/

/-- The agreement speaks of the driving, the trace, the latches and the configuration only. -/
theorem TraceInv.port (h : TraceInv s) (k : PortFrame s t) : TraceInv t := by
  simpa only [TraceInv, k.driven, k.trace, k.out, k.cfg] using h

/-- A `Configure` event begins the driving of the pins at their latch values (10_state.md R22). -/
theorem traceInv_emitConfigure (h : TraceInv s) : TraceInv (emitConfigure s) := by
  obtain ⟨-, hlatch, -⟩ := h
  refine ⟨?_, fun l => ?_, fun hd => by simp at hd⟩
  · rw [emitConfigure_trace, drivenAfter_append]; rfl
  · rw [emitConfigure_trace, levelAfter_append]
    exact hlatch l

/-- A `Wait` event changes no pin (10_state.md R16). -/
theorem traceInv_emitWait (h : TraceInv s) : TraceInv (emitWait s) := by
  simpa only [TraceInv, emitWait_trace, emitWait_driven, emitWait_out, emitWait_cfg, drivenAfter_append,
    levelAfter_append] using h

/-- A `Set` event and its latch agree, with the pins driven and distinct (10_state.md R21). -/
theorem traceInv_emitSet (l : Line) (b : Bool) (h : TraceInv s) (hd : s.driven = true)
    (hpins : s.cfg.pinsDistinct = true) : TraceInv (emitSet l b s) := by
  obtain ⟨hdriven, hlatch, -⟩ := h
  refine ⟨?_, fun k => ?_, fun hn => by simp [hd] at hn⟩
  · rw [emitSet_trace, drivenAfter_append]
    exact hdriven
  · simp only [emitSet_trace, emitSet_out, emitSet_cfg, levelAfter_append, latch_setLatch, pinOf_eq_iff hpins, hlatch]

/-- The sequencer's step keeps the agreement. -/
theorem traceInv_sequencerStep (hb : BlockInv s) (h : TraceInv s) (hq : sequencerStep s = .next t) : TraceInv t := by
  rcases sequencerStep_cases hq with ⟨-, rfl⟩ | ⟨hs, x, -, rfl⟩ | ⟨-, rfl⟩
  · rcases configStep_cases s with ⟨-, e⟩ | ⟨-, -, e⟩ | ⟨-, -, e⟩ <;> rw [e]
    · exact h.port (portFrame_raiseFault _ s)
    · exact h.port (portFrame_raiseFault _ s)
    · exact (traceInv_emitConfigure h).port ⟨rfl, rfl, rfl, rfl, rfl, rfl⟩
  · refine TraceInv.port ?_ (portFrame_moveOn _ _)
    cases lineOp x s.seq.nib s.seq.ustep with
    | wait => exact traceInv_emitWait h
    | set l b =>
      have hd : s.driven = true := (hb.job_facts (running_of_state hs)).1
      exact traceInv_emitSet l b h hd (wellFormed_bounds (hb.configured hd)).1
  · exact h

/-- Asserting rst lets the pins go and clears the latches, as the `Reset` event says; before the first event there is
nothing to say (70_reset_and_hazards.md R154). -/
theorem traceInv_assertReset (hrst : s.rst = false) : TraceInv (assertReset s) := by
  by_cases htr : s.trace.isEmpty = true
  · have hnil : s.trace = [] := by simpa using htr
    simp [TraceInv, assertReset, hrst, hnil, drivenAfter, levelAfter]
  · simp [TraceInv, assertReset, hrst, htr, drivenAfter_append, levelAfter_append]

/-- Releasing rst may change which pins the lines have; while it is asserted no pin has a level but 0. -/
theorem traceInv_releaseReset (c : Cfg) (h : TraceInv s) (hd : s.driven = false) : TraceInv (releaseReset c s) := by
  obtain ⟨hdriven, -, hlevel⟩ := h
  refine ⟨hd.symm.trans hdriven, fun l => ?_, fun _ => hlevel hd⟩
  simpa [releaseReset] using (hlevel hd (pinOf c l)).symm

theorem kept_traceInv : Kept fun s => BlockInv s ∧ TraceInv s where
  hostMoves s h r k := ⟨kept_blockInv.hostMoves s h r k.1, k.2⟩
  textWrite a b s hrst k := ⟨kept_blockInv.textWrite a b s hrst k.1, k.2.port (portFrame_textWrite a b s)⟩
  lengthWrite n s hrst k := ⟨kept_blockInv.lengthWrite n s hrst k.1, k.2.port (portFrame_lengthWrite n s)⟩
  exec i s t hrst hs he k := ⟨kept_blockInv.exec i s t hrst hs he k.1, k.2.port (portFrame_exec he)⟩
  illegal s hrst hs k := ⟨kept_blockInv.illegal s hrst hs k.1, k.2.port (portFrame_raiseFault _ s)⟩
  sequencer s t hrst hq k := ⟨kept_blockInv.sequencer s t hrst hq k.1, traceInv_sequencerStep k.1 k.2 hq⟩

/-- Settles O55: `Configure`, `Set`, `Wait` and `Reset` each keep the agreement, and no other transition touches what it
speaks of. -/
theorem stepKeepsTraceInv : Obligations.StepKeepsTraceInv := by
  intro s t hb h hstep
  refine (kept_traceInv.step (fun hrst rest _ => ?_) (fun hrst c rest _ => ?_) hstep ⟨hb, h⟩).2
  · exact ⟨blockInv_of_reset (resetRegisters_assertReset hrst), traceInv_assertReset hrst⟩
  · have hd : s.driven = false := congrArg State.driven (hb.inReset hrst).symm
    exact ⟨blockInv_of_reset (resetRegisters_releaseReset c _),
      traceInv_releaseReset c (s := { s with host := rest }) h hd⟩

end Sys2Proof.Machine
end

section
/-! SUPPORT. The pointer's advance, and that the sequencer never refuses a step in a state that meets the invariant. -/

namespace Sys2Proof.Machine

variable {s : State}

/-! The advance of the pointer -/

variable {q : Seq}

/-- Below micro-step 9 only `USTEP` moves, by one (10_state.md R28). -/
theorem advance_below_recover (len : Nat) (h : q.ustep ≠ .recover) :
    ∃ m, advance len q = some { q with ustep := m } ∧ ustepCode m = ustepCode q.ustep + 1 := by
  obtain ⟨b, n, m⟩ := q
  cases m with
  | recover => exact absurd rfl h
  | _ => exact ⟨_, rfl, rfl⟩

/-- After the recovery `Wait` of the high nibble the low nibble starts (10_state.md R28). -/
theorem advance_high (len : Nat) (hm : q.ustep = .recover) (hn : q.nib = .high) :
    advance len q = some ⟨q.bidx, .low, .setRs⟩ := by
  simp [advance, nextMicroStep, hm, hn]

/-- After the recovery `Wait` of the low nibble the next byte starts, if there is one (10_state.md R28). -/
theorem advance_low {len : Nat} (hm : q.ustep = .recover) (hn : q.nib = .low) (hb : q.bidx + 1 < len) :
    advance len q = some ⟨q.bidx + 1, .high, .setRs⟩ := by
  simp [advance, nextMicroStep, hm, hn, hb]

/-- A job step whose pointer advances moves the pointer and leaves `STATE` alone. -/
theorem moveOn_perform_of_some {len : Nat} (o : LineOp) (hs : List HostAction) (h : advance len s.seq = some q) :
    (moveOn len (perform o { s with host := hs })).seq = q ∧
      (moveOn len (perform o { s with host := hs })).state = s.state := by
  simp only [moveOn, perform_seq, perform_state, h, and_self]

/-- A job step whose pointer has no advance keeps the pointer and ends the job. -/
theorem moveOn_perform_of_none {len : Nat} (o : LineOp) (hs : List HostAction) (h : advance len s.seq = none) :
    (moveOn len (perform o { s with host := hs })).seq = s.seq ∧
      (moveOn len (perform o { s with host := hs })).running = false := by
  simp only [moveOn, perform_seq, h, endJob_seq, running_endJob, and_self]

/-- Settles O15, by the four cases of the advance. -/
theorem pointerAdvance : Obligations.PointerAdvance := by
  intro s x hrst hj hq hx
  refine ⟨_, step_of_running (k := 0) hrst hj hq hx, fun hm => ?_, fun hm hn => ?_, fun hm hn hb => ?_,
    fun hm hn hb => ?_⟩
  · obtain ⟨m, ha, hcode⟩ := advance_below_recover (byteProgram s).length hm
    obtain ⟨hseq, hstate⟩ := moveOn_perform_of_some _ _ ha
    rw [hseq]
    exact ⟨hcode, rfl, rfl, hstate⟩
  · exact moveOn_perform_of_some _ _ (advance_high _ hm hn)
  · exact moveOn_perform_of_some _ _ (advance_low hm hn hb)
  · exact moveOn_perform_of_none _ _ ((advance_eq_none _ _).mpr ⟨hm, hn, Nat.le_of_eq hb.symm⟩)

/-! No refusal -/

/-- Outside READY the meaning of every request does nothing (10_state.md R39). -/
theorem exec_of_not_ready (i : Instr) (hs : s.state ≠ .ready) : exec i s = .next s := by
  cases i with
  | init => rw [exec, execInit, accept_not_ready _ hs]
  | xfer m v => rw [exec, execXfer, accept_not_ready _ hs]
  | render => rw [exec, execRender, accept_not_ready _ hs]

/-- The meaning of a request is never a refusal. -/
theorem exec_ne_refused (i : Instr) (s : State) (r : Refusal) : exec i s ≠ .refused r := by
  by_cases hs : s.state = .ready
  · cases i with
    | init => simp [exec, execInit, accept_ready _ hs]
    | xfer m v => simp [exec, execXfer, accept_ready _ hs]
    | render =>
      simp only [exec, execRender, accept_ready _ hs]
      split <;> simp
  · simp [exec_of_not_ready i hs]

theorem acceptRequest_ne_refused (s : State) (r : Refusal) : acceptRequest s ≠ .refused r := by
  unfold acceptRequest
  split
  · unfold execWord
    split
    · exact exec_ne_refused _ _ r
    · simp only [execIllegal, accept]
      split <;> simp
  · simp

/-- The pointer of a job in flight names a byte of its program, so the sequencer refuses no step (10_state.md R29). -/
theorem sequencerStep_ne_refused (h : BlockInv s) (r : Refusal) : sequencerStep s ≠ .refused r := by
  have job (hs : s.state = .initializing ∨ s.state = .busy) : jobStep s ≠ .refused r := by
    simp [jobStep, List.getElem?_eq_getElem (h.pointer (running_of_state hs))]
  unfold sequencerStep
  split
  · simp
  · exact job (.inl ‹_›)
  · exact job (.inr ‹_›)
  · simp
  · simp

theorem quietTurn_ne_refused (h : BlockInv s) (r : Refusal) : quietTurn s ≠ .refused r := by
  unfold quietTurn
  split
  · simp
  · split
    · exact acceptRequest_ne_refused s r
    · exact sequencerStep_ne_refused h r

theorem hostCycle_ne_refused (c : HostCycle) (s : State) (r : Refusal) : hostCycle c s ≠ .refused r := by
  unfold hostCycle
  split
  · simp
  · dsimp only
    split
    · exact acceptRequest_ne_refused _ r
    · simp

/-- Settles O50: only a sequencer step could be refused, and the invariant keeps its pointer inside the job. -/
theorem noStepIsRefused : Obligations.NoStepIsRefused := by
  intro s r h
  unfold step turn
  split
  · exact quietTurn_ne_refused h r
  · rename_i a rest _
    cases a with
    | assertReset => simp [hostTurn]
    | releaseReset c =>
      simp only [hostTurn]
      split
      · simp
      · exact hostCycle_ne_refused _ _ r
    | cycle c => exact hostCycle_ne_refused c _ r
    | withdraw => simp [hostTurn]
    | awaitAccept =>
      simp only [hostTurn]
      split
      · simp
      · exact quietTurn_ne_refused h r
    | waitReady =>
      simp only [hostTurn]
      split
      · simp
      · exact quietTurn_ne_refused h r
    | pass => exact quietTurn_ne_refused (blockInv_hostMoves rest s.req h) r

/-! What the invariant says of the registers' widths and of the state after reset -/

/-- Settles O49: the invariant bounds each register by the number that its width is made for. -/
theorem registersFitTheirWidths : Obligations.RegistersFitTheirWidths := by
  intro s h
  have fits {n x : Nat} (hn : n ≤ x) : n < 2 ^ bitWidth x := Nat.lt_of_le_of_lt hn (lt_two_pow_bitWidth x)
  exact ⟨fits h.bidx, fits h.textLen, fun c hc => fits (Nat.le_of_lt (h.textBuf c hc))⟩

/-- Settles O56: every register of `State.reset` has its reset value, no job is in flight and the trace is empty. -/
theorem resetMeetsInvariants : Obligations.ResetMeetsInvariants := by
  have hidle : State.reset.running = false := rfl
  refine ⟨blockInv_of_reset rfl, Mem.wf_reset, ?_, ?_, rfl, fun l => latch_zero l, fun _ _ => rfl⟩
  · simp [StrobeInv, hidle, show State.reset.out.e = false from rfl]
  · simp [LinesInv, hidle]

end Sys2Proof.Machine
end

section
/-! SUPPORT. One step at a request port, a reset or a text port: when a request is accepted and when it is held, the
values after reset, the levels of the pins and the bits of the status word. -/

namespace Sys2Proof.Machine

variable {s : State}

/-! Accepting and holding a request -/

theorem handshake_of_ready {w : Word} (hs : s.state = .ready) (hw : s.req = some w) : handshake s = true := by
  simp [handshake, State.statusReady, hs, hw]

theorem handshake_of_not_ready (hs : s.state ≠ .ready) : handshake s = false := by
  simp [handshake, State.statusReady, hs]

/-- Accepting a word that decodes to a request consumes the word and runs the request (10_state.md R39). -/
theorem acceptRequest_of_decode {w : Word} {i : Instr} (hw : s.req = some w) (hd : decode w = some i) :
    acceptRequest s = exec i { s with req := none } := by
  simp only [acceptRequest, hw, execWord, hd]

/-- A request held in READY is accepted in a turn in which the host changes no line. -/
theorem quietTurn_of_ready {w : Word} {i : Instr} (hrst : s.rst = false) (hs : s.state = .ready) (hw : s.req = some w)
    (hd : decode w = some i) : quietTurn s = exec i { s with req := none } := by
  simp only [quietTurn, hrst, handshake_of_ready hs hw, acceptRequest_of_decode hw hd, Bool.false_eq_true, if_false,
    if_true]

theorem step_of_cycle {c : HostCycle} {rest : List HostAction} (h : s.host = .cycle c :: rest) :
    step s = hostCycle c { s with host := rest } := by
  simp only [step, turn, h, hostTurn]

/-- A host cycle that only presents a word puts it on the port, and it is accepted if the block is READY. -/
theorem step_of_presenting {w : Word} {rest : List HostAction} (hrst : s.rst = false)
    (h : s.host = .cycle { req := some w } :: rest) :
    step s =
      if handshake { s with host := rest, req := some w } then acceptRequest { s with host := rest, req := some w }
      else .next { s with host := rest, req := some w } := by
  rw [step_of_cycle h, hostCycle, if_neg (by simp [hrst])]
  rfl

/-- Settles O4: in each of the three forms the turn comes down to `acceptRequest`. -/
theorem stepRunsDecodedRequest : Obligations.StepRunsDecodedRequest := by
  refine ⟨fun s w i rest hrst hs hd hh => ?_, fun s w i hrst hs hd hw hh => ?_, fun s w i rest hrst hs hd hw hh => ?_⟩
  · rw [step_of_presenting hrst hh,
      if_pos (handshake_of_ready (s := { s with host := rest, req := some w }) hs rfl)]
    exact acceptRequest_of_decode rfl hd
  · have hshake := handshake_of_ready hs hw
    rw [← quietTurn_of_ready hrst hs hw hd]
    rcases hh with hh | ⟨rest, hh | hh⟩
    · simp only [step, turn, hh]
    · simp [step, turn, hh, hostTurn, hw]
    · simp [step, turn, hh, hostTurn, hshake]
  · simp only [step, turn, hh, hostTurn]
    exact quietTurn_of_ready (s := { s with host := rest }) hrst hs hw hd

theorem perform_req (o : LineOp) (s : State) : (perform o s).req = s.req := by rw [perform_eq]

theorem moveOn_req (len : Nat) (s : State) : (moveOn len s).req = s.req := by
  rcases moveOn_cases len s with ⟨q, -, e⟩ | ⟨-, e⟩ <;> rw [e]
  exact endJob_req s

theorem configStep_req (s : State) : (configStep s).req = s.req := by
  rcases configStep_cases s with ⟨-, e⟩ | ⟨-, -, e⟩ | ⟨-, -, e⟩ <;> rw [e]
  · rw [raiseFault_eq]
  · rw [raiseFault_eq]
  · rfl

/-- The sequencer's step leaves the request port alone (10_state.md R39). -/
theorem sequencerStep_req {t : State} (h : sequencerStep s = .next t) : t.req = s.req := by
  rcases sequencerStep_cases h with ⟨-, rfl⟩ | ⟨-, x, -, rfl⟩ | ⟨-, rfl⟩
  · exact configStep_req s
  · rw [moveOn_req, perform_req]
  · rfl

/-- Settles O6: while READY is 0 the two handshake lines are never both 1. -/
theorem requestHeldWhileNotReady : Obligations.RequestHeldWhileNotReady := by
  refine ⟨fun i s hs => ?_, fun s w rest hrst hs hh => ?_, fun s t w hrst hs hq hw hstep => ?_⟩
  · exact exec_of_not_ready i hs
  · rw [step_of_presenting hrst hh, handshake_of_not_ready (s := { s with host := rest, req := some w }) hs]
    rfl
  · rw [step_of_quiet (k := 0) hrst hs hq] at hstep
    exact (sequencerStep_req hstep).trans hw

/-! The values after reset -/

/-- `STATUS` reads 0x00 in reset (10_state.md R44). -/
theorem status_resetRegisters (s : State) : (resetRegisters s).status = 0x00#8 := by
  simp [State.status, State.statusBusy, State.statusReady, errBits]

/-- Settles O30: both steps of reset leave every register at its value in `resetRegisters`. -/
theorem registersAtReset : Obligations.RegistersAtReset := by
  intro s a rest hh hcase
  have hreset : ∃ t, step s = .next t ∧ resetRegisters t = t ∧ (∀ c, a = .releaseReset c → t.cfg = c) ∧
      t.trace = (if a = .assertReset ∧ s.trace ≠ [] then s.trace ++ [.reset] else s.trace) := by
    rcases hcase with ⟨rfl, hrst⟩ | ⟨c, rfl, hrst⟩
    · refine ⟨assertReset { s with host := rest }, by simp only [step, turn, hh, hostTurn],
        resetRegisters_assertReset hrst, by simp, ?_⟩
      by_cases htr : s.trace = [] <;> simp [assertReset, hrst, htr]
    · exact ⟨releaseReset c { s with host := rest }, by simp only [step, turn, hh, hostTurn, hrst, if_true],
        resetRegisters_releaseReset c _, fun _ e => by cases e; rfl, by simp [releaseReset]⟩
  obtain ⟨t, hstep, hreg, hcfg, htrace⟩ := hreset
  refine ⟨t, hstep, ?_⟩
  rw [← hreg]
  exact ⟨rfl, rfl, rfl, rfl, rfl, rfl, rfl, rfl, rfl, rfl, status_resetRegisters t, fun _ => rfl, fun _ => rfl,
    hcfg, htrace⟩

/-! The levels of the pins -/

/-- While the pins are driven and distinct, the line found for a line's pin is that line (10_state.md R21). -/
theorem pinLevel_of_driven (l : Line) (hd : s.driven = true) (hp : s.cfg.pinsDistinct = true) :
    s.pinLevel (pinOf s.cfg l) = some (latch s.out l) := by
  simp only [State.pinLevel, hd, if_true, pinOf_eq_iff hp]
  cases l <;> rfl

/-- A well-formed configuration whose pins the platform accepts is configured (70_reset_and_hazards.md R156). -/
theorem configStep_of_accepted (hc : s.cfg.wellFormed s.limits = true) (hp : ∀ p ∈ s.cfg.pins, p ∉ s.platRejects) :
    configStep s = startJob .initializing .init (emitConfigure s) := by
  rcases configStep_cases s with ⟨hbroken, -⟩ | ⟨-, ⟨p, hmem, hrej⟩, -⟩ | ⟨-, -, e⟩
  · simp [hc] at hbroken
  · exact absurd hrej (hp p hmem)
  · exact e

/-- Settles O32: with distinct pins the line found for a pin is its own. -/
theorem pinLevelsFollowLatches : Obligations.PinLevelsFollowLatches := by
  refine ⟨fun s l hd hp => pinLevel_of_driven l hd hp, fun s p hd => by simp [State.pinLevel, hd],
    fun s l hrst hq hs hc hp => ?_⟩
  have hstep : step s = .next (configStep { s with host := hostAfter 1 s.host }) := by
    rw [step_of_quiet (k := 0) hrst (by simp [hs]) hq]
    simp only [sequencerStep, hs]
  rw [configStep_of_accepted (s := { s with host := hostAfter 1 s.host }) hc hp] at hstep
  exact ⟨_, hstep, pinLevel_of_driven (s := startJob _ _ (emitConfigure _)) l rfl (wellFormed_bounds hc).1⟩

/-! The status word -/

/-- The fields of the status word, for every value of them (10_state.md R30). -/
theorem status_fields : ∀ (e : BitVec 3) (f i b r : Bool),
    let w : Byte := 0#1 ++ e ++ BitVec.ofBool f ++ BitVec.ofBool i ++ BitVec.ofBool b ++ BitVec.ofBool r
    w.getLsbD 0 = r ∧ w.getLsbD 1 = b ∧ w.getLsbD 2 = i ∧ w.getLsbD 3 = f ∧ w.extractLsb' 4 3 = e ∧
      w.getLsbD 7 = false := by decide

/-- Settles O33: STATUS is built of exactly these fields. -/
theorem statusWordBits : Obligations.StatusWordBits := by
  refine ⟨fun s => ?_, fun s t hs hi hf he => ?_⟩
  · exact status_fields (errBits s.errCode) s.fault s.initDone s.statusBusy s.statusReady
  · simp only [State.status, State.statusBusy, State.statusReady, hs, hi, hf, he]

/-! The text port -/

theorem textPort_textPort (c : Cfg) (n : Nat) : textPort c (textPort c n) = textPort c n := Nat.mod_mod _ _

/-- The host cycle with the numbers that the text port carries. -/
def carriedCycle (cfg : Cfg) (c : HostCycle) : HostCycle where
  text := c.text.map fun p => (textPort cfg p.1, p.2)
  len := c.len.map (textPort cfg)
  req := c.req

theorem applyWrites_carriedCycle (c : HostCycle) (s : State) :
    applyWrites (carriedCycle s.cfg c) s = applyWrites c s := by
  have htext : applyText (carriedCycle s.cfg c) s = applyText c s := by
    cases hc : c.text <;> simp [applyText, carriedCycle, hc, textPort_textPort]
  have hcfg : (applyText c s).cfg = s.cfg := (portFrame_applyText c s).cfg
  rw [applyWrites, htext, applyWrites]
  cases hc : c.len <;> simp [applyLength, carriedCycle, hc, hcfg, textPort_textPort]

theorem hostCycle_carriedCycle (c : HostCycle) (s : State) :
    hostCycle (carriedCycle s.cfg c) s = hostCycle c s := by
  simp only [hostCycle, applyWrites_carriedCycle]
  rfl

/-- Settles O38: what the port carries of a number it carries again as it is, so the two host cycles write the same. -/
theorem textPortCarriesItsWidth : Obligations.TextPortCarriesItsWidth := by
  refine ⟨fun x => ⟨lt_two_pow_bitWidth x, fun k => bitWidth_le⟩, fun c n => ⟨?_, textPort_of_le⟩,
    fun s c rest hh => ?_⟩
  · exact Nat.mod_lt n (Nat.two_pow_pos _)
  · rw [step_of_cycle hh]
    exact (hostCycle_carriedCycle c { s with host := rest }).symm

end Sys2Proof.Machine
end

section
/-! SUPPORT. The host's memory: what a byte write and a length write do, in range and out of range, and that every step
keeps both memories in canonical form. -/

namespace Sys2Proof.Machine

variable {s t : State}

/-! A host cycle that presents no request -/

/-- No fault leaves the block READY (60_exceptions.md R136). -/
theorem raiseFault_not_ready (c : ErrCode) (s : State) : (raiseFault c s).state ≠ .ready := by
  rw [raiseFault_eq]
  by_cases hs : s.state = .config ∨ s.state = .ready
  · simp [hs]
  · simp only [if_neg hs]
    exact fun hr => hs (.inr hr)

/-- The writes of a host cycle never make the block READY. -/
theorem applyWrites_not_ready (c : HostCycle) (hs : s.state ≠ .ready) : (applyWrites c s).state ≠ .ready := by
  have htext : (applyText c s).state ≠ .ready := by
    rcases applyText_cases c s with ⟨-, e⟩ | ⟨a, b, -, -, e⟩ | ⟨a, b, -, -, e⟩ <;> rw [e]
    · exact hs
    · exact hs
    · exact raiseFault_not_ready _ s
  unfold applyWrites
  rcases applyLength_cases c (applyText c s) with ⟨-, e⟩ | ⟨n, -, -, e⟩ | ⟨n, -, -, e⟩ <;> rw [e]
  · exact htext
  · exact htext
  · exact raiseFault_not_ready _ _

/-- A host cycle that presents no request, with none held in READY, does its writes and nothing else. -/
theorem step_of_writing {c : HostCycle} {rest : List HostAction} (hc : c.req = none) (hrst : s.rst = false)
    (hreq : s.req = none ∨ s.state ≠ .ready) (h : s.host = .cycle c :: rest) :
    step s = .next (applyWrites c { s with host := rest }) := by
  have hpresent : ∀ u, present c u = u := fun u => by simp only [present, hc]
  have hidle : handshake (applyWrites c { s with host := rest }) = false := by
    rcases hreq with hn | hs
    · obtain ⟨-, hkept, -⟩ := applyWrites_frame c { s with host := rest }
      rw [handshake, hkept.trans hn]
      rfl
    · exact handshake_of_not_ready (applyWrites_not_ready c (s := { s with host := rest }) hs)
  rw [step_of_cycle h, hostCycle, if_neg (by simp [hrst])]
  simp only [hpresent, hidle, Bool.false_eq_true, if_false]

/-! Writes in range and out of range -/

theorem textWrite_of_lt {a : Nat} (b : Byte) (h : a < s.cfg.textMax) :
    textWrite a b s = { s with textBuf := Mem.write s.textBuf a b } :=
  if_neg (Nat.not_le.mpr h)

theorem textWrite_of_ge {a : Nat} (b : Byte) (h : s.cfg.textMax ≤ a) : textWrite a b s = raiseFault .textRange s :=
  if_pos h

theorem lengthWrite_of_le {n : Nat} (h : n ≤ s.cfg.textMax) : lengthWrite n s = { s with textLen := n } :=
  if_neg (Nat.not_lt.mpr h)

theorem lengthWrite_of_gt {n : Nat} (h : s.cfg.textMax < n) : lengthWrite n s = raiseFault .textRange s :=
  if_pos h

/-- A fault sets `FAULT` and is recorded if it is the first (60_exceptions.md R136). -/
theorem raiseFault_recorded (c : ErrCode) (s : State) :
    (raiseFault c s).fault = true ∧ (s.fault = false → (raiseFault c s).errCode = c) := by
  rw [raiseFault_eq]
  exact ⟨rfl, fun hf => if_neg (by simp [hf])⟩

/-- A fault touches neither memory nor `TEXTLEN`. -/
theorem raiseFault_memory (c : ErrCode) (s : State) :
    (raiseFault c s).textBuf = s.textBuf ∧ (raiseFault c s).textLen = s.textLen ∧
      (raiseFault c s).raster = s.raster := by
  rw [raiseFault_eq]
  exact ⟨rfl, rfl, rfl⟩

/-- Settles O34: the step is `textWrite` at the address driven, which the port carries as it is. -/
theorem textByteWrite : Obligations.TextByteWrite := by
  intro s a b rest hrst hreq hh
  have hstep : step s = .next (textWrite (textPort s.cfg a) b { s with host := rest }) :=
    step_of_writing rfl hrst hreq hh
  have hframe := portFrame_textWrite (textPort s.cfg a) b { s with host := rest }
  refine ⟨_, hstep, hframe.trace, hframe.out, fun ha => ?_, fun ha hport => ?_⟩
  · rw [textPort_of_le (Nat.le_of_lt ha), textWrite_of_lt (s := { s with host := rest }) b ha]
    exact ⟨rfl, Mem.read_write s.textBuf a b⟩
  · rw [textPort_of_lt hport, textWrite_of_ge (s := { s with host := rest }) b ha]
    obtain ⟨hfault, hcode⟩ := raiseFault_recorded .textRange { s with host := rest }
    exact ⟨hfault, hcode, (raiseFault_memory _ _).1⟩

/-- Settles O35: the step is the model's `lengthWrite` of the number driven, which the port carries as it is. -/
theorem lengthWrite_obligation : Obligations.LengthWrite := by
  intro s n rest hrst hreq hh
  have hstep : step s = .next (lengthWrite (textPort s.cfg n) { s with host := rest }) :=
    step_of_writing rfl hrst hreq hh
  refine ⟨fun hn => ?_, fun hn hport => ?_⟩
  · rw [hstep, textPort_of_le hn, lengthWrite_of_le (s := { s with host := rest }) hn]
  · rw [textPort_of_lt hport, lengthWrite_of_gt (s := { s with host := rest }) hn] at hstep
    obtain ⟨hfault, hcode⟩ := raiseFault_recorded .textRange { s with host := rest }
    obtain ⟨-, hlen, -⟩ := raiseFault_memory .textRange { s with host := rest }
    exact ⟨_, hstep, hfault, hcode, hlen, (portFrame_raiseFault _ _).trace⟩

/-! The canonical form -/

/-- The canonical form speaks of the two memories only. -/
theorem MemoryInv.congr (h : MemoryInv s) (ht : t.textBuf = s.textBuf) (hr : t.raster = s.raster) : MemoryInv t := by
  rwa [MemoryInv, ht, hr]

theorem memoryInv_raiseFault (c : ErrCode) (h : MemoryInv s) : MemoryInv (raiseFault c s) := by
  obtain ⟨ht, -, hr⟩ := raiseFault_memory c s
  exact h.congr ht hr

theorem memoryInv_textWrite (a : Nat) (b : Byte) (h : MemoryInv s) : MemoryInv (textWrite a b s) := by
  rcases textWrite_cases a b s with ⟨-, e⟩ | ⟨-, e⟩ <;> rw [e]
  · exact ⟨Mem.wf_write a b h.1, h.2⟩
  · exact memoryInv_raiseFault _ h

theorem memoryInv_lengthWrite (n : Nat) (h : MemoryInv s) : MemoryInv (lengthWrite n s) := by
  rcases lengthWrite_cases n s with ⟨-, e⟩ | ⟨-, e⟩ <;> rw [e]
  · exact h
  · exact memoryInv_raiseFault _ h

/-- Of the requests only RENDER writes a memory, and it stores the whole raster anew (41_layout.md R114). -/
theorem memoryInv_exec {i : Instr} (h : MemoryInv s) (he : exec i s = .next t) : MemoryInv t := by
  rcases exec_cases he with ⟨-, rfl⟩ | ⟨-, ⟨-, rfl⟩ | ⟨m, v, -, rfl⟩ | ⟨l, -, -, rfl⟩⟩
  · exact h
  · exact h
  · exact h
  · exact ⟨h.1, Mem.wf_storeRows _⟩

/-- The sequencer's step writes neither memory (40_transfer.md R98). -/
theorem sequencerStep_memory (h : sequencerStep s = .next t) : t.textBuf = s.textBuf ∧ t.raster = s.raster := by
  rcases sequencerStep_cases h with ⟨-, rfl⟩ | ⟨-, x, -, rfl⟩ | ⟨-, rfl⟩
  · rcases configStep_cases s with ⟨-, e⟩ | ⟨-, -, e⟩ | ⟨-, -, e⟩ <;> rw [e]
    · exact (raiseFault_memory _ s).imp_right And.right
    · exact (raiseFault_memory _ s).imp_right And.right
    · exact ⟨rfl, rfl⟩
  · rcases moveOn_cases (byteProgram s).length (perform (lineOp x s.seq.nib s.seq.ustep) s) with
      ⟨q, -, e⟩ | ⟨-, e⟩ <;> rw [e, perform_eq] <;> exact ⟨rfl, rfl⟩
  · exact ⟨rfl, rfl⟩

theorem kept_memoryInv : Kept MemoryInv where
  hostMoves _ _ _ h := h
  textWrite a b _ _ h := memoryInv_textWrite a b h
  lengthWrite n _ _ h := memoryInv_lengthWrite n h
  exec _ _ _ _ _ he h := memoryInv_exec h he
  illegal _ _ _ h := memoryInv_raiseFault _ h
  sequencer _ _ _ hq h := by
    obtain ⟨ht, hr⟩ := sequencerStep_memory hq
    exact h.congr ht hr

/-- A reset leaves both memories empty (10_state.md R44). -/
theorem memoryInv_of_reset (h : resetRegisters s = s) : MemoryInv s := by
  rw [← h]
  exact ⟨Mem.wf_nil, Mem.wf_nil⟩

/-- Settles O52: each transition of `Kept` keeps the canonical form, and both steps of reset empty the memories. -/
theorem stepKeepsMemoryInv : Obligations.StepKeepsMemoryInv := fun _ _ h hstep =>
  kept_memoryInv.step (fun hrst _ _ => memoryInv_of_reset (resetRegisters_assertReset hrst))
    (fun _ c _ _ => memoryInv_of_reset (resetRegisters_releaseReset c _)) hstep h

end Sys2Proof.Machine
end

section
/-! SUPPORT. The request word as its fields, and the decoder and the encoder read through them (30_encoding.md R64 to
R71). -/

namespace Sys2Proof

/-! The fields of a word -/

/-- The word whose fields from bit 15 down are OP, RSV, M and V (30_encoding.md R64). -/
def fieldWord (op : BitVec 4) (rsv : BitVec 3) (m : Bool) (v : Byte) : Word :=
  op ++ rsv ++ BitVec.ofBool m ++ v

section
variable (op : BitVec 4) (rsv : BitVec 3) (m : Bool) (v : Byte)

theorem op_fieldWord : (fieldWord op rsv m v).extractLsb' 12 4 = op := by
  rw [fieldWord, BitVec.extractLsb'_append_eq_of_le (by decide), BitVec.extractLsb'_append_eq_of_le (by decide)]
  exact BitVec.extractLsb'_append_eq_left

theorem rsv_fieldWord : (fieldWord op rsv m v).extractLsb' 9 3 = rsv := by
  rw [fieldWord, BitVec.extractLsb'_append_eq_of_le (by decide), BitVec.extractLsb'_append_eq_of_le (by decide)]
  exact BitVec.extractLsb'_append_eq_right

theorem m_fieldWord : (fieldWord op rsv m v).getLsbD 8 = m := by
  rw [fieldWord, BitVec.getLsbD_append, if_neg (by decide), BitVec.getLsbD_append, if_pos (by decide)]
  cases m <;> rfl

theorem v_fieldWord : (fieldWord op rsv m v).extractLsb' 0 8 = v :=
  BitVec.extractLsb'_append_eq_right

end

/-- A word is made of its own fields. -/
theorem fieldWord_of_fields (w : Word) :
    fieldWord (w.extractLsb' 12 4) (w.extractLsb' 9 3) (w.getLsbD 8) (w.extractLsb' 0 8) = w := by
  have hm : BitVec.ofBool (w.getLsbD 8) = w.extractLsb' 8 1 := by
    ext i hi
    obtain rfl : i = 0 := by omega
    simp
  have hopRsv : w.extractLsb' 12 4 ++ w.extractLsb' 9 3 = w.extractLsb' 9 7 :=
    BitVec.extractLsb'_append_extractLsb'_eq_extractLsb' rfl
  have hhigh : w.extractLsb' 9 7 ++ w.extractLsb' 8 1 = w.extractLsb' 8 8 :=
    BitVec.extractLsb'_append_extractLsb'_eq_extractLsb' rfl
  rw [fieldWord, hm, hopRsv, hhigh]
  exact BitVec.extractLsb'_append_extractLsb'

theorem eq_fieldWord_iff {w : Word} {op : BitVec 4} {rsv : BitVec 3} {m : Bool} {v : Byte} :
    w = fieldWord op rsv m v ↔
      w.extractLsb' 12 4 = op ∧ w.extractLsb' 9 3 = rsv ∧ w.getLsbD 8 = m ∧ w.extractLsb' 0 8 = v := by
  constructor
  · rintro rfl
    exact ⟨op_fieldWord op rsv m v, rsv_fieldWord op rsv m v, m_fieldWord op rsv m v, v_fieldWord op rsv m v⟩
  · rintro ⟨rfl, rfl, rfl, rfl⟩
    exact (fieldWord_of_fields w).symm

/-! What the decoder tests -/

theorem eq_initWord_iff {w : Word} :
    w = 0x1000#16 ↔
      w.extractLsb' 12 4 = 0b0001#4 ∧ w.extractLsb' 9 3 = 0#3 ∧ w.getLsbD 8 = false ∧ w.extractLsb' 0 8 = 0x00#8 := by
  rw [← eq_fieldWord_iff]
  rfl

theorem eq_renderWord_iff {w : Word} :
    w = 0x3000#16 ↔
      w.extractLsb' 12 4 = 0b0011#4 ∧ w.extractLsb' 9 3 = 0#3 ∧ w.getLsbD 8 = false ∧ w.extractLsb' 0 8 = 0x00#8 := by
  rw [← eq_fieldWord_iff]
  rfl

/-- A word matches XFER's row exactly if its OP is XFER's and its RSV is 0 (30_encoding.md R68). -/
theorem matches_xferRow_iff {w : Word} :
    w &&& 0xFE00#16 = 0x2000#16 ↔ w.extractLsb' 12 4 = 0b0010#4 ∧ w.extractLsb' 9 3 = 0#3 := by
  have hmask : 0xFE00#16 = fieldWord (BitVec.allOnes 4) (BitVec.allOnes 3) false 0x00#8 := by decide
  have hmatch : 0x2000#16 = fieldWord 0b0010#4 0#3 false 0x00#8 := by decide
  rw [hmatch, eq_fieldWord_iff]
  simp only [BitVec.extractLsb'_and, BitVec.getLsbD_and, hmask, op_fieldWord, rsv_fieldWord, m_fieldWord, v_fieldWord,
    BitVec.and_allOnes, BitVec.and_zero, Bool.and_false, and_true]

/-- Settles O2: each test of the decoder is a test of fields. -/
theorem decodeReadsRequestFields : Obligations.DecodeReadsRequestFields := by
  intro w
  simp only [decode, eq_initWord_iff, matches_xferRow_iff, eq_renderWord_iff, Mode.ofBit]

/-! Decoding and encoding are inverse -/

@[simp] theorem Mode.ofBit_toBit (m : Mode) : Mode.ofBit m.toBit = m := by cases m <;> rfl

@[simp] theorem Mode.toBit_ofBit (b : Bool) : (Mode.ofBit b).toBit = b := by cases b <;> rfl

theorem encode_xfer (m : Mode) (v : Byte) : encode (.xfer m v) = fieldWord 0b0010#4 0#3 m.toBit v := rfl

/-- A word of XFER's row encodes the XFER of its own M and V. -/
theorem encode_xfer_of_matches {w : Word} (h : w &&& 0xFE00#16 = 0x2000#16) :
    encode (.xfer (Mode.ofBit (w.getLsbD 8)) (w.extractLsb' 0 8)) = w := by
  obtain ⟨hop, hrsv⟩ := matches_xferRow_iff.mp h
  rw [encode_xfer, Mode.toBit_ofBit, ← hop, ← hrsv]
  exact fieldWord_of_fields w

/-- Every request is read back from its word (30_encoding.md R67 to R69). -/
theorem decode_encode (i : Instr) : decode (encode i) = some i := by
  cases i with
  | init => decide
  | xfer m v =>
    obtain ⟨(hrow : _ &&& 0xFE00#16 = 0x2000#16), hmode, hvalue⟩ := Laws.EncodingMatchesRow.xfer m v
    have hinit : encode (.xfer m v) ≠ 0x1000#16 := by
      intro h
      rw [h] at hrow
      exact absurd hrow (by decide)
    rw [decode, if_neg hinit, if_pos hrow, hmode, hvalue, Mode.ofBit_toBit]
  | render => decide

/-- A word that decodes to a request is that request's word: no request has two words (30_encoding.md R70). -/
theorem encode_of_decode {w : Word} {i : Instr} (h : decode w = some i) : encode i = w := by
  unfold decode at h
  split at h
  next hinit =>
    cases h
    exact hinit.symm
  next =>
    split at h
    next hrow =>
      cases h
      exact encode_xfer_of_matches hrow
    next =>
      split at h
      next hrender =>
        cases h
        exact hrender.symm
      next => cases h

/-- Settles O1: the encoder is the decoder's inverse on the words that decode to a request. -/
theorem decodeExactlyEncodedWords : Obligations.DecodeExactlyEncodedWords := by
  intro w i
  constructor
  · exact fun h => (encode_of_decode h).symm
  · rintro rfl
    exact decode_encode i

/-- Settles O3: the worked words are computed, and each decodes because it is the request's word. -/
theorem workedEncodings : Obligations.WorkedEncodings := by
  have hcommand : encode (.xfer .command 0x28#8) = 0x2028#16 := by decide
  have hdata : encode (.xfer .data 0x48#8) = 0x2148#16 := by decide
  have hrsv : decode 0x2200#16 = none := by decide
  have hoperand : decode 0x1001#16 = none := by decide
  exact ⟨hcommand, hcommand, hcommand ▸ decode_encode _, hdata, hdata, hdata ▸ decode_encode _,
    hrsv, by decide, hoperand, by decide, by decide, decode_encode .init, decode_encode .render⟩

end Sys2Proof
end

section
/-! SUPPORT. The laws of the lines during a job: what leaves the job in flight and the latches alone, the strobe law and
the setup and hold law over every step, and that nothing interrupts a job (40_transfer.md R94, R103, R104). -/

namespace Sys2Proof.Machine

variable {s t u : State}

/-! What leaves the job in flight alone -/

/-- `t` has the latches and the pointer of `s` and the same job in flight, or none if `s` has none. -/
structure SameJob (s t : State) : Prop where
  out : t.out = s.out
  seq : t.seq = s.seq
  running : t.running = s.running
  state : s.running = true → t.state = s.state
  program : s.running = true → byteProgram t = byteProgram s

theorem SameJob.refl (s : State) : SameJob s s := ⟨rfl, rfl, rfl, fun _ => rfl, fun _ => rfl⟩

theorem SameJob.trans (h : SameJob s t) (k : SameJob t u) : SameJob s u where
  out := k.out.trans h.out
  seq := k.seq.trans h.seq
  running := k.running.trans h.running
  state hj := (k.state (h.running.trans hj)).trans (h.state hj)
  program hj := (k.program (h.running.trans hj)).trans (h.program hj)

theorem not_running_of_state (hs : s.state = .config ∨ s.state = .ready ∨ s.state = .fault) : s.running = false := by
  rcases hs with hs | hs | hs <;> simp [State.running, State.statusBusy, hs]

/-- During a job a fault changes the two fault registers only, and no fault starts or ends a job (60_exceptions.md
R137). -/
theorem sameJob_raiseFault (c : ErrCode) (s : State) : SameJob s (raiseFault c s) := by
  cases hj : s.running with
  | true =>
    rw [raiseFault_in_job c hj]
    exact ⟨rfl, rfl, rfl, fun _ => rfl, fun _ => byteProgram_congr rfl rfl rfl rfl rfl⟩
  | false =>
    have hidle : (raiseFault c s).running = false := by
      rw [raiseFault_eq]
      by_cases hs : s.state = .config ∨ s.state = .ready
      · simp [State.running, State.statusBusy, hs]
      · simpa only [State.running, State.statusBusy, if_neg hs] using hj
    refine ⟨?_, ?_, hidle.trans hj.symm, by simp [hj], by simp [hj]⟩ <;> rw [raiseFault_eq]

theorem sameJob_textWrite (a : Nat) (b : Byte) (s : State) : SameJob s (textWrite a b s) := by
  rcases textWrite_cases a b s with ⟨-, e⟩ | ⟨-, e⟩ <;> rw [e]
  · exact ⟨rfl, rfl, rfl, fun _ => rfl, fun _ => byteProgram_congr rfl rfl rfl rfl rfl⟩
  · exact sameJob_raiseFault _ s

theorem sameJob_lengthWrite (n : Nat) (s : State) : SameJob s (lengthWrite n s) := by
  rcases lengthWrite_cases n s with ⟨-, e⟩ | ⟨-, e⟩ <;> rw [e]
  · exact ⟨rfl, rfl, rfl, fun _ => rfl, fun _ => byteProgram_congr rfl rfl rfl rfl rfl⟩
  · exact sameJob_raiseFault _ s

theorem sameJob_applyText (c : HostCycle) (s : State) : SameJob s (applyText c s) := by
  unfold applyText
  split
  · exact sameJob_textWrite _ _ s
  · exact .refl s

theorem sameJob_applyLength (c : HostCycle) (s : State) : SameJob s (applyLength c s) := by
  unfold applyLength
  split
  · exact sameJob_lengthWrite _ s
  · exact .refl s

theorem sameJob_applyWrites (c : HostCycle) (s : State) : SameJob s (applyWrites c s) :=
  (sameJob_applyText c s).trans (sameJob_applyLength c _)

/-- A job that starts does so at the pointer `(0, 0, 0)` with the latches as they are (40_transfer.md R95). -/
theorem exec_starts {i : Instr} (hs : s.state = .ready) (he : exec i s = .next t) :
    t.seq = Seq.start ∧ t.out = s.out := by
  rcases exec_cases he with ⟨hn, -⟩ | ⟨-, ⟨-, rfl⟩ | ⟨m, v, -, rfl⟩ | ⟨l, -, -, rfl⟩⟩
  · exact absurd hs hn
  all_goals exact ⟨rfl, rfl⟩

/-- The configuration step leaves no job in flight, or the reset-time INIT at the pointer `(0, 0, 0)`, and the latches
alone (70_reset_and_hazards.md R156). -/
theorem configStep_starts (hs : s.state = .config) :
    ((configStep s).running = false ∨ (configStep s).seq = Seq.start) ∧ (configStep s).out = s.out := by
  have hidle : ∀ c, (raiseFault c s).running = false := fun c =>
    (sameJob_raiseFault c s).running.trans (not_running_of_state (.inl hs))
  rcases configStep_cases s with ⟨-, e⟩ | ⟨-, -, e⟩ | ⟨-, -, e⟩ <;> rw [e]
  · exact ⟨.inl (hidle _), (sameJob_raiseFault _ s).out⟩
  · exact ⟨.inl (hidle _), (sameJob_raiseFault _ s).out⟩
  · exact ⟨.inr rfl, rfl⟩

/-- The advance of the pointer goes to the next micro-step, to the low nibble or to the next byte (10_state.md R28). -/
theorem advance_cases {len : Nat} {q r : Seq} (h : advance len q = some r) :
    (∃ v, nextMicroStep q.ustep = some v ∧ r = { q with ustep := v }) ∨
      (q.ustep = .recover ∧ q.nib = .high ∧ r = ⟨q.bidx, .low, .setRs⟩) ∨
      (q.ustep = .recover ∧ q.nib = .low ∧ q.bidx + 1 < len ∧ r = ⟨q.bidx + 1, .high, .setRs⟩) := by
  unfold advance at h
  split at h
  · cases h; exact .inl ⟨_, ‹_›, rfl⟩
  · rename_i hlast
    have hm : q.ustep = .recover := by
      cases hu : q.ustep with
      | recover => rfl
      | _ => rw [hu] at hlast; cases hlast
    split at h
    · cases h; exact .inr (.inl ⟨hm, ‹_›, rfl⟩)
    · split at h
      · cases h; exact .inr (.inr ⟨hm, ‹_›, ‹_›, rfl⟩)
      · cases h

/-- The advance goes to the next micro-step of the nibble in flight or, after its last, to the first of another one. -/
theorem advance_within_or_to_first {len : Nat} {q r : Seq} (h : advance len q = some r) :
    (∃ v, nextMicroStep q.ustep = some v ∧ r = { q with ustep := v }) ∨ (q.ustep = .recover ∧ r.ustep = .setRs) := by
  rcases advance_cases h with hnext | ⟨hm, -, rfl⟩ | ⟨hm, -, -, rfl⟩
  · exact .inl hnext
  · exact .inr ⟨hm, rfl⟩
  · exact .inr ⟨hm, rfl⟩

/-! The strobe law -/

/-- The law speaks of the latches, of whether a job is in flight and of the pointer only. -/
theorem StrobeInv.congr (h : StrobeInv s) (k : SameJob s t) : StrobeInv t := by
  simpa only [StrobeInv, k.out, k.running, k.seq] using h

/-- With E low and no strobe in flight the law holds. -/
theorem strobeInv_of_low (he : s.out.e = false) (hj : s.running = false ∨ s.seq.ustep = .setRs) : StrobeInv s := by
  rcases hj with hj | hj <;> simp [StrobeInv, he, hj]

theorem StrobeInv.low_of_idle (h : StrobeInv s) (hj : s.running = false) : s.out.e = false := by
  simpa [StrobeInv, hj] using h

theorem StrobeInv.low_of_recover (h : StrobeInv s) (hu : s.seq.ustep = .recover) : s.out.e = false := by
  simpa [StrobeInv, hu] using h

/-- Of the micro-steps only the rise and the fall move E (40_transfer.md R86). -/
theorem e_perform_lineOp (x : Transfer) (h : Half) (m : MicroStep) (s : State) :
    (perform (lineOp x h m) s).out.e = if m = .raiseE then true else if m = .lowerE then false else s.out.e := by
  cases m <;> rfl

/-- Where the law holds before a micro-step, E is high after it exactly if that was the rise or the strobe-high `Wait`
(40_transfer.md R103). -/
theorem StrobeInv.e_perform (h : StrobeInv s) (hj : s.running = true) (x : Transfer) :
    (perform (lineOp x s.seq.nib s.seq.ustep) s).out.e = true ↔ s.seq.ustep = .raiseE ∨ s.seq.ustep = .hold := by
  have hE : s.out.e = true ↔ s.seq.ustep = .hold ∨ s.seq.ustep = .lowerE := by simpa [StrobeInv, hj] using h
  rw [e_perform_lineOp]
  cases hu : s.seq.ustep <;> simp [hE, hu]

theorem strobe_nextMicroStep {m v : MicroStep} (h : nextMicroStep m = some v) :
    v = .hold ∨ v = .lowerE ↔ m = .raiseE ∨ m = .hold := by
  cases m <;> cases h <;> decide

/-- A job step keeps the law: E rises into the strobe-high `Wait` and falls into the recovery `Wait`. -/
theorem strobeInv_jobStep (h : StrobeInv s) (hj : s.running = true) (x : Transfer) :
    StrobeInv (moveOn (byteProgram s).length (perform (lineOp x s.seq.nib s.seq.ustep) s)) := by
  rcases moveOn_perform_cases s x with ⟨q, ha, e⟩ | ⟨hu, -, -, e⟩ <;> rw [e]
  · have hE := h.e_perform hj x
    rcases advance_within_or_to_first ha with ⟨v, hv, rfl⟩ | ⟨hlast, hfirst⟩
    · have hrun := (perform_running (lineOp x s.seq.nib s.seq.ustep) s).trans hj
      exact hE.trans ((strobe_nextMicroStep hv).symm.trans (and_iff_right hrun).symm)
    · refine strobeInv_of_low ?_ (.inr hfirst)
      rw [← Bool.not_eq_true, hE, hlast]
      decide
  · exact strobeInv_of_low (h.low_of_recover hu) (.inl (running_endJob _))

theorem kept_strobeInv : Kept StrobeInv where
  hostMoves _ _ _ h := h
  textWrite a b s _ h := h.congr (sameJob_textWrite a b s)
  lengthWrite n s _ h := h.congr (sameJob_lengthWrite n s)
  exec i s t _ hs he h := by
    obtain ⟨hseq, hout⟩ := exec_starts hs he
    have hlow := h.low_of_idle (not_running_of_state (.inr (.inl hs)))
    exact strobeInv_of_low (by rw [hout, hlow]) (.inr (by rw [hseq]; rfl))
  illegal s _ _ h := h.congr (sameJob_raiseFault _ s)
  sequencer s t _ hq h := by
    rcases sequencerStep_cases hq with ⟨hs, rfl⟩ | ⟨hs, x, -, rfl⟩ | ⟨-, rfl⟩
    · obtain ⟨hstart, hout⟩ := configStep_starts hs
      have hlow := h.low_of_idle (not_running_of_state (.inl hs))
      exact strobeInv_of_low (by rw [hout, hlow]) (hstart.imp_right fun e => by rw [e]; rfl)
    · exact strobeInv_jobStep h (running_of_state hs) x
    · exact h

/-- A block whose registers hold their reset values has every latch low and no job in flight (10_state.md R44). -/
theorem idle_of_reset (h : resetRegisters s = s) : s.out.e = false ∧ s.running = false := by
  rw [← h]
  exact ⟨rfl, rfl⟩

theorem strobeInv_of_reset (h : resetRegisters s = s) : StrobeInv s :=
  strobeInv_of_low (idle_of_reset h).1 (.inl (idle_of_reset h).2)

/-- Settles O53: only a job step moves E, and it does so into and out of the two micro-steps of the law. -/
theorem stepKeepsStrobeLaw : Obligations.StepKeepsStrobeLaw := fun _ _ h hstep =>
  kept_strobeInv.step (fun hrst _ _ => strobeInv_of_reset (resetRegisters_assertReset hrst))
    (fun _ c _ _ => strobeInv_of_reset (resetRegisters_releaseReset c _)) hstep h

/-! The setup and hold law -/

/-- The law speaks of the latches and of the job in flight only. -/
theorem LinesInv.congr (h : LinesInv s) (k : SameJob s t) : LinesInv t := by
  intro hj
  have hj' : s.running = true := k.running.symm.trans hj
  simpa only [k.program hj', k.seq, k.out] using h hj'

/-- With no job in flight, or none of its nibble's lines set yet, the law asks nothing. -/
theorem linesInv_of_none_set (hj : s.running = false ∨ s.seq.ustep = .setRs) : LinesInv s := by
  rcases hj with hj | hj <;> simp [LinesInv, hj, linesSetBefore]

/-- The line that a micro-step sets takes the nibble's level, E apart (40_transfer.md R87, R88). -/
theorem latch_perform_of_set {o : LineOp} {l : Line} {b : Bool} (h : o = .set l b) (s : State) :
    latch (perform o s).out l = b := by
  rw [h]
  exact latch_setLatch_same s.out l b

theorem latch_perform_of_not_set {o : LineOp} {l : Line} (h : ∀ b, o ≠ .set l b) (s : State) :
    latch (perform o s).out l = latch s.out l := by
  cases o with
  | wait => rfl
  | set k b => exact latch_setLatch_other s.out b fun e => h b (e ▸ rfl)

/-- The lines set before the next micro-step are those set before this one and, with its level in the nibble, the line
that this one sets, E apart (40_transfer.md R86). -/
theorem linesSetBefore_next {m v : MicroStep} (x : Transfer) (h : Half) (hv : nextMicroStep m = some v) :
    linesSetBefore v = linesSetBefore m ∨
      ∃ l b, linesSetBefore v = linesSetBefore m ++ [l] ∧ lineOp x h m = .set l b ∧ presented x h l = some b := by
  cases m with
  | recover => cases hv
  | settle | raiseE | hold | lowerE => cases hv; exact .inl rfl
  | setRs | setD0 | setD1 | setD2 | setD3 => cases hv; exact .inr ⟨_, _, rfl, rfl, rfl⟩

/-- No micro-step sets a line again that the nibble has set before (40_transfer.md R86). -/
theorem lineOp_ne_set_before (x : Transfer) (h : Half) {m : MicroStep} {l : Line} (hl : l ∈ linesSetBefore m)
    (b : Bool) : lineOp x h m ≠ .set l b := by
  intro e
  cases m <;> cases e <;> exact absurd hl (by decide)

/-- Within a nibble a job step keeps the law: it sets its own line as the nibble says and none that was set before. -/
theorem lines_perform {m v : MicroStep} {x : Transfer} {h : Half} (hv : nextMicroStep m = some v)
    (hset : ∀ l ∈ linesSetBefore m, presented x h l = some (latch s.out l)) :
    ∀ l ∈ linesSetBefore v, presented x h l = some (latch (perform (lineOp x h m) s).out l) := by
  have before : ∀ l ∈ linesSetBefore m, presented x h l = some (latch (perform (lineOp x h m) s).out l) := by
    intro l hl
    rw [latch_perform_of_not_set (lineOp_ne_set_before x h hl) s, hset l hl]
  rcases linesSetBefore_next x h hv with e | ⟨k, b, e, hop, hpres⟩ <;> rw [e]
  · exact before
  · intro l hl
    rcases List.mem_append.mp hl with hl | hl
    · exact before l hl
    · rw [List.mem_singleton.mp hl, latch_perform_of_set hop s, hpres]

/-- A job step keeps the law. -/
theorem linesInv_jobStep {x : Transfer} (h : LinesInv s) (hj : s.running = true)
    (hx : (byteProgram s)[s.seq.bidx]? = some x) :
    LinesInv (moveOn (byteProgram s).length (perform (lineOp x s.seq.nib s.seq.ustep) s)) := by
  rcases moveOn_perform_cases s x with ⟨q, ha, e⟩ | ⟨-, -, -, e⟩ <;> rw [e]
  · rcases advance_within_or_to_first ha with ⟨v, hv, rfl⟩ | ⟨-, hfirst⟩
    · intro _ y hy
      have hprog : byteProgram { perform (lineOp x s.seq.nib s.seq.ustep) s with seq := { s.seq with ustep := v } } =
          byteProgram s := byteProgram_perform _ s
      rw [hprog] at hy
      obtain rfl : x = y := Option.some.inj (hx.symm.trans hy)
      exact lines_perform hv (h hj x hx)
    · exact linesInv_of_none_set (.inr hfirst)
  · exact linesInv_of_none_set (.inl (running_endJob _))

theorem kept_linesInv : Kept LinesInv where
  hostMoves _ _ _ h := h
  textWrite a b s _ h := h.congr (sameJob_textWrite a b s)
  lengthWrite n s _ h := h.congr (sameJob_lengthWrite n s)
  exec i s t _ hs he _ := linesInv_of_none_set (.inr (by rw [(exec_starts hs he).1]; rfl))
  illegal s _ _ h := h.congr (sameJob_raiseFault _ s)
  sequencer s t _ hq h := by
    rcases sequencerStep_cases hq with ⟨hs, rfl⟩ | ⟨hs, x, hx, rfl⟩ | ⟨-, rfl⟩
    · exact linesInv_of_none_set ((configStep_starts hs).1.imp_right fun e => by rw [e]; rfl)
    · exact linesInv_jobStep h (running_of_state hs) hx
    · exact h

theorem linesInv_of_reset (h : resetRegisters s = s) : LinesInv s :=
  linesInv_of_none_set (.inl (idle_of_reset h).2)

/-- Settles O54: a job step sets its own line as the nibble says, and no step changes a line set before in it. -/
theorem stepKeepsSetupAndHold : Obligations.StepKeepsSetupAndHold := fun _ _ h hstep =>
  kept_linesInv.step (fun hrst _ _ => linesInv_of_reset (resetRegisters_assertReset hrst))
    (fun _ c _ _ => linesInv_of_reset (resetRegisters_releaseReset c _)) hstep h

/-! Nothing interrupts a job -/

/-- No request is accepted during a job, whatever the host writes (40_transfer.md R94). -/
theorem accepting_not_ready (c : HostCycle) (rest : List HostAction) (hj : s.running = true) :
    (accepting c rest s).state ≠ .ready := by
  refine applyWrites_not_ready c (s := { s with host := rest }) fun hs => ?_
  simp [State.running, State.statusBusy, show s.state = .ready from hs] at hj

/-- Settles O47: of the transitions that a job in flight leaves, only the sequencer's step performs an event. -/
theorem nothingInterruptsAJob : Obligations.NothingInterruptsAJob := by
  intro s t hrst hj hnoreset h
  cases step_transition h with
  | assertReset rest _ hh => exact absurd hh (hnoreset rest)
  | releaseReset c rest hr _ => simp [hrst] at hr
  | hostMoves rest r => exact .inl ⟨rfl, rfl, rfl, rfl⟩
  | writes c rest r _ =>
    have hport := portFrame_applyWrites c { s with host := rest }
    have hjob := sameJob_applyWrites c { s with host := rest }
    exact .inl ⟨hport.trace, hjob.seq, hjob.out, hjob.state hj⟩
  | accepts c rest i t _ hs _ => exact absurd hs (accepting_not_ready c rest hj)
  | illegal c rest _ hs => exact absurd hs (accepting_not_ready c rest hj)
  | sequencer rest t _ hq =>
    rcases sequencerStep_cases hq with ⟨hs, -⟩ | ⟨-, x, hx, rfl⟩ | ⟨hs, -⟩
    · exact absurd (hj.symm.trans (not_running_of_state (.inl hs))) (by decide)
    · exact .inr ⟨x, hx, (portFrame_moveOn _ _).trace.trans (congrArg State.trace (perform_eq _ _))⟩
    · exact absurd (hj.symm.trans (not_running_of_state (.inr hs))) (by decide)

end Sys2Proof.Machine
end

section
/-! SUPPORT. What the acceptance of a request does: the job that it starts, what RENDER lays out, and what no request
changes (40_transfer.md R95, R96, R101; 41_layout.md R114). -/

namespace Sys2Proof.Machine

variable {s t : State}

/-- In READY an INIT starts its job (40_transfer.md R101). -/
theorem exec_init_of_ready (hs : s.state = .ready) : exec .init s = .next (startJob .busy .init s) := by
  rw [exec, execInit, accept_ready _ hs]

/-- In READY an XFER latches its operands and starts its job (40_transfer.md R96). -/
theorem exec_xfer_of_ready (m : Mode) (v : Byte) (hs : s.state = .ready) :
    exec (.xfer m v) s = .next (startJob .busy .xfer { s with curMode := m, curVal := v }) := by
  rw [exec, execXfer, accept_ready _ hs]

/-- In READY a RENDER whose text was written throughout rasterizes that text (41_layout.md R114). -/
theorem exec_render_of_readRange {l : List Byte} (hs : s.state = .ready)
    (hl : Mem.readRange s.textBuf 0 s.textLen = some l) :
    exec .render s = .next (startJob .busy .render (rasterize l s)) := by
  rw [exec, execRender, accept_ready _ hs, hl]

/-- Settles O8: the start of a job is this update. -/
theorem initAcceptance : Obligations.InitAcceptance := fun _ hs => exec_init_of_ready hs

/-- Settles O9: the operands are latched, and the start of a job is this update. -/
theorem xferAcceptance : Obligations.XferAcceptance := fun _ m v hs => exec_xfer_of_ready m v hs

/-- A range whose bytes were all written is read. -/
theorem readRange_of_written {m : Mem} {k : Nat} (h : ∀ a < k, (Mem.read m a).isSome = true) :
    ∃ l, Mem.readRange m 0 k = some l := by
  rw [← Option.ne_none_iff_exists', ne_eq, Mem.readRange_eq_none]
  rintro ⟨a, ha, hnone⟩
  simpa [Nat.zero_add a ▸ hnone] using h a ha

/-- The raster byte of line `r`, column `j` is byte `j` of row `r` of the layout (41_layout.md R115). -/
theorem read_storeRows_eq_format (p : List (List Byte)) {w n r j : Nat} (hr : r < n) (hj : j < w) :
    Mem.read (storeRows (format p w n)) (r * w + j) = ((format p w n)[r]?).bind fun x => x[j]? := by
  rw [read_storeRows p w n r j hr hj, getElem?_format, if_pos hr]
  rfl

/-- Settles O7: in READY each request starts its job, and RENDER has first stored the layout of its text. -/
theorem acceptanceStartsJob : Obligations.AcceptanceStartsJob := by
  intro i s hs hwritten
  cases i with
  | init => exact ⟨_, exec_init_of_ready hs, rfl, rfl, rfl, rfl⟩
  | xfer m v => exact ⟨_, exec_xfer_of_ready m v hs, rfl, rfl, rfl, rfl, rfl, rfl⟩
  | render =>
    obtain ⟨l, hl⟩ := readRange_of_written (hwritten rfl)
    obtain ⟨hlen, hread⟩ := (Mem.readRange_eq_some _ _ _ _).mp hl
    refine ⟨_, exec_render_of_readRange hs hl, rfl, rfl, rfl, rfl, l, hlen, fun a ha => ?_, fun r hr j hj => ?_⟩
    · rw [← hread a ha, Nat.zero_add]
    · exact read_storeRows_eq_format (split l) hr hj

/-- Settles O11: the start of a job writes STATE, JOB and seq, XFER its operands besides and RENDER the raster. -/
theorem acceptanceFrame : Obligations.AcceptanceFrame := by
  intro i s t he
  rcases exec_cases he with ⟨-, rfl⟩ | ⟨-, ⟨rfl, rfl⟩ | ⟨m, v, rfl, rfl⟩ | ⟨l, rfl, -, rfl⟩⟩ <;>
    refine ⟨rfl, rfl, rfl, rfl, rfl, rfl, rfl, rfl, rfl, rfl, rfl, rfl, rfl, fun _ => rfl, fun hrender => ?_,
      fun hxfer => ?_⟩
  · exact fun _ => rfl
  · exact ⟨rfl, rfl⟩
  · exact fun _ => rfl
  · exact ⟨rfl, rfl⟩
  · exact fun _ => rfl
  · exact absurd rfl (hxfer m v)
  · exact absurd rfl hrender
  · exact ⟨rfl, rfl⟩

/-! Line Dk carries bit k -/

theorem nibbleBit_hi (v : Byte) {k : Nat} (hk : k < 4) : nibbleBit (hi v) k = v.getLsbD (4 + k) := by
  simp [nibbleBit, hi, hk]

theorem nibbleBit_lo (v : Byte) {k : Nat} (hk : k < 4) : nibbleBit (lo v) k = v.getLsbD k := by
  simp [nibbleBit, lo, hk]

/-- Settles O12: bit `k` of the high nibble is bit `4 + k` of the byte, and bit `k` of the low nibble is its bit `k`. -/
theorem dataLinesCarryNibbleBits : Obligations.DataLinesCarryNibbleBits := by
  intro x
  simp [lineOp, nib, nibbleBit_hi, nibbleBit_lo]

/-- Settles O17: `initProgram` is that list. -/
theorem initializationBytes : Obligations.InitializationBytes := by
  intro s hj
  rw [byteProgram, hj]
  rfl

end Sys2Proof.Machine
end

section
/-! SUPPORT. Counting the events of nibbles, byte transfers and byte programs (40_transfer.md R86, R92, R105). -/

namespace Sys2Proof.Machine

variable {c : Cfg}

/-- How many events of a piece of trace set the pin `p`, to either level. -/
def setsOf (p : PinId) (es : List Event) : Nat := es.count (.set p true) + es.count (.set p false)

@[simp] theorem setsOf_nil (p : PinId) : setsOf p [] = 0 := rfl

@[simp] theorem setsOf_append (p : PinId) (es fs : List Event) : setsOf p (es ++ fs) = setsOf p es + setsOf p fs := by
  simp only [setsOf, List.count_append]
  omega

@[simp] theorem setsOf_cons_set (p q : PinId) (b : Bool) (es : List Event) :
    setsOf p (.set q b :: es) = setsOf p es + if q = p then 1 else 0 := by
  by_cases hq : q = p <;> cases b <;> simp [setsOf, hq] <;> omega

@[simp] theorem setsOf_cons_wait (p : PinId) (es : List Event) : setsOf p (.wait :: es) = setsOf p es := by
  simp [setsOf]

/-- The settings of the data lines are those of the four lines one by one. -/
theorem sum_data_sets (c : Cfg) (es : List Event) :
    ([c.dPin0, c.dPin1, c.dPin2, c.dPin3].map fun p => es.count (.set p true) + es.count (.set p false)).sum =
      setsOf (pinOf c .d0) es + setsOf (pinOf c .d1) es + setsOf (pinOf c .d2) es + setsOf (pinOf c .d3) es := by
  simp only [List.map_cons, List.map_nil, List.sum_cons, List.sum_nil, setsOf, pinOf]
  omega

/-! A byte transfer -/

theorem length_transferEvents (c : Cfg) (x : Transfer) : (transferEvents c x).length = 20 := rfl

theorem count_wait_transferEvents (c : Cfg) (x : Transfer) : (transferEvents c x).count .wait = 6 := by
  simp [transferEvents, nibbleEvents]

/-- The ten events of a nibble by the lines that they set. -/
theorem nibbleEvents_eq (c : Cfg) (m : Mode) (n : Nibble) :
    nibbleEvents c m n =
      [.set (pinOf c .rs) (level m), .set (pinOf c .d0) (nibbleBit n 0), .set (pinOf c .d1) (nibbleBit n 1),
        .set (pinOf c .d2) (nibbleBit n 2), .set (pinOf c .d3) (nibbleBit n 3), .wait, .set (pinOf c .e) true, .wait,
        .set (pinOf c .e) false, .wait] := rfl

/-- A byte transfer sets RS and each data line twice (40_transfer.md R92). -/
theorem setsOf_transferEvents (h : c.pinsDistinct = true) (x : Transfer) {l : Line} (hl : l ≠ .e) :
    setsOf (pinOf c l) (transferEvents c x) = 2 := by
  cases l with
  | e => exact absurd rfl hl
  | rs | d0 | d1 | d2 | d3 => simp [transferEvents, nibbleEvents_eq, pinOf_eq_iff h]

/-- A byte transfer raises E twice and lowers it twice (40_transfer.md R92). -/
theorem count_e_transferEvents (h : c.pinsDistinct = true) (x : Transfer) (b : Bool) :
    (transferEvents c x).count (.set (pinOf c .e) b) = 2 := by
  cases b <;> simp [transferEvents, nibbleEvents_eq, pinOf_eq_iff h]

/-- Both settings of RS in a byte transfer are to the level of its mode (30_encoding.md R74). -/
theorem count_rs_transferEvents (h : c.pinsDistinct = true) (x : Transfer) :
    (transferEvents c x).count (.set (pinOf c .rs) (level x.mode)) = 2 := by
  simp [transferEvents, nibbleEvents_eq, pinOf_eq_iff h]

/-! A byte program -/

@[simp] theorem programEvents_nil (c : Cfg) : programEvents c [] = [] := rfl

@[simp] theorem programEvents_cons (c : Cfg) (x : Transfer) (p : List Transfer) :
    programEvents c (x :: p) = transferEvents c x ++ programEvents c p := List.flatMap_cons

/-- A count that adds up over a trace and is `n` on every byte transfer is `n * L` on a program of `L` of them. -/
theorem additive_programEvents {f : List Event → Nat} {n : Nat} (hnil : f [] = 0)
    (happend : ∀ es fs, f (es ++ fs) = f es + f fs) (htransfer : ∀ x, f (transferEvents c x) = n) (p : List Transfer) :
    f (programEvents c p) = n * p.length := by
  induction p with
  | nil => exact hnil
  | cons x p ih => rw [programEvents_cons, happend, htransfer, ih, List.length_cons, Nat.mul_succ, Nat.add_comm]

theorem length_programEvents (c : Cfg) (p : List Transfer) : (programEvents c p).length = 20 * p.length :=
  additive_programEvents rfl (fun _ _ => List.length_append) (length_transferEvents c) p

theorem count_programEvents {e : Event} {n : Nat} (h : ∀ x, (transferEvents c x).count e = n) (p : List Transfer) :
    (programEvents c p).count e = n * p.length :=
  additive_programEvents rfl (fun _ _ => List.count_append) h p

/-- A program of `L` byte transfers sets RS and each data line `2 * L` times (40_transfer.md R105). -/
theorem setsOf_programEvents (h : c.pinsDistinct = true) (p : List Transfer) {l : Line} (hl : l ≠ .e) :
    setsOf (pinOf c l) (programEvents c p) = 2 * p.length :=
  additive_programEvents rfl (setsOf_append _) (fun x => setsOf_transferEvents h x hl) p

/-- Settles O21: each count adds up over the byte transfers, and the lengths of the three programs are known. -/
theorem jobEventCounts : Obligations.JobEventCounts := by
  refine ⟨fun c p h => ⟨length_programEvents c p, count_programEvents (count_wait_transferEvents c) p,
    setsOf_programEvents h p (l := .rs) (by decide), ?_, count_programEvents (count_e_transferEvents h · true) p,
    count_programEvents (count_e_transferEvents h · false) p⟩, fun s => ?_⟩
  · rw [sum_data_sets, setsOf_programEvents h p (by decide), setsOf_programEvents h p (by decide),
      setsOf_programEvents h p (by decide), setsOf_programEvents h p (by decide)]
    omega
  · simp only [length_programEvents]
    refine ⟨fun hj => ?_, fun hj => ?_, fun hj => ?_⟩ <;> simp only [byteProgram, hj]
    · rfl
    · rfl
    · rw [length_renderProgram, Nat.mul_assoc]

end Sys2Proof.Machine
end

section
/-! SUPPORT. Runs of a job while the host changes no line: the events that a job has left to perform, that as many steps
perform exactly these, and the state at the job's end (10_state.md R28; 40_transfer.md R97 to R99). -/

namespace Sys2Proof.Machine

variable {s t u : State} {c : Cfg} {x : Transfer} {p : List Transfer} {q r : Seq}

/-! The events that are left from a pointer on -/

/-- The event of a micro-step on the physical pins of a configuration. -/
def eventOf (c : Cfg) : LineOp → Event
  | .set l b => .set (pinOf c l) b
  | .wait => .wait

/-- What is left of a nibble from micro-step `m` on (40_transfer.md R86). -/
def nibbleLeft (c : Cfg) (x : Transfer) (h : Half) (m : MicroStep) : List Event :=
  ([.setRs, .setD0, .setD1, .setD2, .setD3, .settle, .raiseE, .hold, .lowerE, .recover].dropWhile
    fun v => decide (v ≠ m)).map fun v => eventOf c (lineOp x h v)

/-- The nibble after the one in flight, if it belongs to the same byte transfer (40_transfer.md R92). -/
def secondNibble (c : Cfg) (x : Transfer) : Half → List Event
  | .high => nibbleEvents c x.mode (lo x.value)
  | .low => []

/-- What is left of the byte program `p` from the pointer `q` on. -/
def eventsFrom (c : Cfg) (p : List Transfer) (q : Seq) : List Event :=
  match p[q.bidx]? with
  | some x => nibbleLeft c x q.nib q.ustep ++ secondNibble c x q.nib ++ programEvents c (p.drop (q.bidx + 1))
  | none => []

/-- The events that the job of a state has left to perform. -/
def eventsLeft (s : State) : List Event := eventsFrom s.cfg (byteProgram s) s.seq

theorem eventsFrom_of_some (hx : p[q.bidx]? = some x) :
    eventsFrom c p q =
      nibbleLeft c x q.nib q.ustep ++ secondNibble c x q.nib ++ programEvents c (p.drop (q.bidx + 1)) := by
  simp only [eventsFrom, hx]

theorem nibbleLeft_start (c : Cfg) (x : Transfer) (h : Half) :
    nibbleLeft c x h .setRs = nibbleEvents c x.mode (nib x.value h) := rfl

theorem nibbleLeft_next {m v : MicroStep} (c : Cfg) (x : Transfer) (h : Half) (hv : nextMicroStep m = some v) :
    nibbleLeft c x h m = eventOf c (lineOp x h m) :: nibbleLeft c x h v := by
  cases m <;> cases hv <;> rfl

/-- From the start of a byte on, what is left is the program from that byte on. -/
theorem eventsFrom_byte_start (c : Cfg) (p : List Transfer) (b : Nat) :
    eventsFrom c p ⟨b, .high, .setRs⟩ = programEvents c (p.drop b) := by
  by_cases hb : b < p.length
  · rw [eventsFrom_of_some (List.getElem?_eq_getElem hb), List.drop_eq_getElem_cons hb, programEvents_cons]
    rfl
  · simp only [eventsFrom, List.getElem?_eq_none (Nat.le_of_not_lt hb), List.drop_eq_nil_of_le (Nat.le_of_not_lt hb)]
    rfl

/-- Something is left exactly while the pointer names a byte of the program. -/
theorem eventsFrom_ne_nil : eventsFrom c p q ≠ [] ↔ ∃ x, p[q.bidx]? = some x := by
  constructor
  · intro h
    cases hx : p[q.bidx]? with
    | some x => exact ⟨x, rfl⟩
    | none => exact absurd (by simp only [eventsFrom, hx]) h
  · rintro ⟨x, hx⟩
    have hleft : nibbleLeft c x q.nib q.ustep ≠ [] := by cases q.ustep <;> exact List.cons_ne_nil _ _
    simp [eventsFrom_of_some hx, hleft]

/-- Where the pointer advances, what is left is the event it names and then what is left from the next pointer on. -/
theorem eventsFrom_of_advance (hx : p[q.bidx]? = some x) (ha : advance p.length q = some r) :
    eventsFrom c p q = eventOf c (lineOp x q.nib q.ustep) :: eventsFrom c p r := by
  rw [eventsFrom_of_some hx]
  rcases advance_cases ha with ⟨v, hv, rfl⟩ | ⟨hm, hn, rfl⟩ | ⟨hm, hn, -, rfl⟩
  · rw [eventsFrom_of_some (q := { q with ustep := v }) hx, nibbleLeft_next c x q.nib hv]
    rfl
  · rw [eventsFrom_of_some (q := ⟨q.bidx, .low, .setRs⟩) hx, hm, hn]
    rfl
  · rw [eventsFrom_byte_start, hm, hn]
    rfl

/-- At the end of a job the recovery `Wait` of the last nibble is left (40_transfer.md R99). -/
theorem eventsFrom_of_last (hx : p[q.bidx]? = some x) (ha : advance p.length q = none) :
    eventsFrom c p q = [.wait] := by
  obtain ⟨hm, hn, hb⟩ := (advance_eq_none _ _).mp ha
  rw [eventsFrom_of_some hx, hm, hn, List.drop_eq_nil_of_le hb]
  rfl

/-- The last event left is the one after which the pointer does not advance. -/
theorem advance_of_last_event (hx : p[q.bidx]? = some x) (hlen : (eventsFrom c p q).length ≤ 1) :
    advance p.length q = none := by
  cases ha : advance p.length q with
  | none => rfl
  | some r =>
    obtain ⟨hq, -⟩ := List.getElem?_eq_some_iff.mp hx
    have hr : eventsFrom c p r ≠ [] := eventsFrom_ne_nil.mpr ⟨_, List.getElem?_eq_getElem (advance_bidx_lt ha hq)⟩
    rw [eventsFrom_of_advance hx ha, List.length_cons] at hlen
    exact absurd (List.eq_nil_of_length_eq_zero (by omega)) hr

/-- At the start of a job the whole of its byte program is left. -/
theorem eventsLeft_of_start (hseq : s.seq = Seq.start) : eventsLeft s = programEvents s.cfg (byteProgram s) := by
  rw [eventsLeft, hseq]
  exact eventsFrom_byte_start s.cfg (byteProgram s) 0

/-! Runs within a job -/

/-- The state `s` after `k` events of its job, with the latches `o` and the pointer `q`: besides these, the trace and
the host's passes, nothing has changed. -/
def afterEvents (k : Nat) (o : Latches) (q : Seq) (s : State) : State :=
  { s with out := o, seq := q, trace := s.trace ++ (eventsLeft s).take k, host := hostAfter k s.host }

theorem byteProgram_afterEvents (k : Nat) (o : Latches) (q : Seq) (s : State) :
    byteProgram (afterEvents k o q s) = byteProgram s :=
  byteProgram_congr rfl rfl rfl rfl rfl

theorem eventsLeft_afterEvents (k : Nat) (o : Latches) (q : Seq) (s : State) :
    eventsLeft (afterEvents k o q s) = eventsFrom s.cfg (byteProgram s) q := by
  rw [eventsLeft, byteProgram_afterEvents]
  rfl

theorem quietFor_afterEvents {k l : Nat} (o : Latches) (q : Seq) (hq : s.quietFor (k + l) = true) :
    (afterEvents k o q s).quietFor l = true := by
  rw [State.quietFor, quietHost_add, Bool.and_eq_true] at hq
  exact hq.2

/-- `k` steps from `s` perform the next `k` events of its job and answer `t`, with the rest of the job still to do. -/
structure Performed (k : Nat) (s t : State) : Prop where
  run : runSteps k s = .next t
  after : ∃ o q, t = afterEvents k o q s
  left : eventsLeft t = (eventsLeft s).drop k

theorem performed_zero (s : State) : Performed 0 s s where
  run := rfl
  after := ⟨s.out, s.seq, by simp [afterEvents]⟩
  left := rfl

theorem Performed.trans {k l : Nat} (h : Performed k s t) (g : Performed l t u) : Performed (k + l) s u where
  run := (runSteps_add h.run).trans g.run
  after := by
    obtain ⟨o, q, ht⟩ := h.after
    obtain ⟨o', q', hu⟩ := g.after
    refine ⟨o', q', ?_⟩
    rw [hu, afterEvents, h.left, ht]
    simp only [afterEvents, List.take_add, List.append_assoc, hostAfter_add]
  left := by rw [g.left, h.left, List.drop_drop]

/-- A micro-step appends its event and changes no register but a latch. -/
theorem perform_eq_eventOf (o : LineOp) (s : State) :
    perform o s = { s with trace := s.trace ++ [eventOf s.cfg o], out := (perform o s).out } := by
  cases o <;> rfl

/-- A job's step that is not its last performs the next event (40_transfer.md R98). -/
theorem performed_one (hrst : s.rst = false) (hj : s.running = true) (hq : s.quietFor 1 = true)
    (hlen : 1 < (eventsLeft s).length) : ∃ t, Performed 1 s t := by
  obtain ⟨x, hx⟩ := eventsFrom_ne_nil.mp (List.ne_nil_of_length_pos (Nat.lt_of_succ_lt hlen))
  cases ha : advance (byteProgram s).length s.seq with
  | none =>
    rw [eventsLeft, eventsFrom_of_last hx ha] at hlen
    exact absurd hlen (by decide)
  | some r =>
    have hleft : eventsLeft s = eventOf s.cfg (lineOp x s.seq.nib s.seq.ustep) :: eventsFrom s.cfg (byteProgram s) r :=
      eventsFrom_of_advance hx ha
    have hmove : moveOn (byteProgram s).length
        (perform (lineOp x s.seq.nib s.seq.ustep) { s with host := hostAfter 1 s.host }) =
          afterEvents 1 (perform (lineOp x s.seq.nib s.seq.ustep) { s with host := hostAfter 1 s.host }).out r s := by
      simp only [moveOn, perform_seq, ha]
      rw [perform_eq_eventOf, afterEvents, hleft]
      rfl
    refine ⟨_, (runSteps_succ (step_of_running (k := 0) hrst hj hq hx)).trans rfl, ⟨_, _, hmove⟩, ?_⟩
    rw [hmove, eventsLeft_afterEvents, hleft]
    rfl

/-- As long as some of the job's events are left, `k` steps perform the next `k` of them (40_transfer.md R97, R98). -/
theorem performed_of_lt {k : Nat} (hrst : s.rst = false) (hj : s.running = true) (hq : s.quietFor k = true)
    (hk : k < (eventsLeft s).length) : ∃ t, Performed k s t := by
  induction k with
  | zero => exact ⟨s, performed_zero s⟩
  | succ k ih =>
    obtain ⟨t, ht⟩ := ih (quietHost_mono hq (Nat.le_succ k)) (Nat.lt_of_succ_lt hk)
    obtain ⟨o, q, e⟩ := ht.after
    have hlen : 1 < (eventsLeft t).length := by rw [ht.left, List.length_drop]; omega
    obtain ⟨u, hu⟩ : ∃ u, Performed 1 t u := by
      subst e
      exact performed_one hrst hj (quietFor_afterEvents o q hq) hlen
    exact ⟨u, ht.trans hu⟩

/-! The end of a job -/

/-- The last step of a job performs the recovery `Wait` and ends the job (40_transfer.md R99). -/
theorem step_of_last (hrst : s.rst = false) (hj : s.running = true) (hq : s.quietFor 1 = true)
    (hx : (byteProgram s)[s.seq.bidx]? = some x) (ha : advance (byteProgram s).length s.seq = none) :
    step s = .next (endJob (emitWait { s with host := hostAfter 1 s.host })) := by
  obtain ⟨hm, -, -⟩ := (advance_eq_none _ _).mp ha
  rw [step_of_running (k := 0) hrst hj hq hx]
  simp only [moveOn, perform_seq, ha]
  rw [hm]
  rfl

/-- As many steps as the job has events left perform them all and end the job (40_transfer.md R97, R99). -/
theorem runSteps_to_end (hrst : s.rst = false) (hj : s.running = true)
    (hq : s.quietFor (eventsLeft s).length = true) (hne : eventsLeft s ≠ []) :
    ∃ o, runSteps (eventsLeft s).length s =
      .next (endJob (afterEvents (eventsLeft s).length o ⟨(byteProgram s).length - 1, .low, .recover⟩ s)) := by
  obtain ⟨n, hn⟩ : ∃ n, (eventsLeft s).length = n + 1 :=
    Nat.exists_eq_add_one_of_ne_zero fun h => hne (List.eq_nil_of_length_eq_zero h)
  rw [hn] at hq ⊢
  obtain ⟨t, hrun, ⟨o, q, rfl⟩, hleft⟩ := performed_of_lt hrst hj (quietHost_mono hq (Nat.le_succ n)) (by omega)
  rw [eventsLeft_afterEvents] at hleft
  have hlen : (eventsFrom s.cfg (byteProgram s) q).length = 1 := by rw [hleft, List.length_drop]; omega
  obtain ⟨x, hx⟩ := eventsFrom_ne_nil.mp (List.ne_nil_of_length_pos (hlen ▸ Nat.one_pos))
  have ha : advance (byteProgram s).length q = none := advance_of_last_event hx (Nat.le_of_eq hlen)
  have hseq : q = ⟨(byteProgram s).length - 1, .low, .recover⟩ := by
    obtain ⟨hm, hn, hb⟩ := (advance_eq_none _ _).mp ha
    obtain ⟨hlt, -⟩ := List.getElem?_eq_some_iff.mp hx
    rw [← hm, ← hn, show (byteProgram s).length - 1 = q.bidx by omega]
  have htake : (eventsLeft s).take (n + 1) = (eventsLeft s).take n ++ [.wait] := by
    rw [List.take_add, ← hleft, eventsFrom_of_last hx ha]
    rfl
  have hstep := step_of_last (s := afterEvents n o q s) (x := x) hrst hj (quietFor_afterEvents o q hq)
    (by rwa [byteProgram_afterEvents]) (by rwa [byteProgram_afterEvents])
  refine ⟨o, (runSteps_add hrun).trans ((runSteps_succ hstep).trans ?_)⟩
  rw [runSteps_zero, ← hseq]
  simp only [afterEvents, emitWait, htake, hostAfter_add, List.append_assoc]

/-- Up to the end of the job, `k` steps append the next `k` of its events. -/
theorem trace_of_events_left {k : Nat} (hrst : s.rst = false) (hj : s.running = true) (hq : s.quietFor k = true)
    (hne : eventsLeft s ≠ []) (hk : k ≤ (eventsLeft s).length) :
    ∃ t, runSteps k s = .next t ∧ t.trace = s.trace ++ (eventsLeft s).take k := by
  rcases Nat.lt_or_eq_of_le hk with hlt | rfl
  · obtain ⟨t, hrun, ⟨o, q, rfl⟩, -⟩ := performed_of_lt hrst hj hq hlt
    exact ⟨_, hrun, rfl⟩
  · obtain ⟨o, hrun⟩ := runSteps_to_end hrst hj hq hne
    exact ⟨_, hrun, rfl⟩

/-- From the start of a nibble on, the next ten events are those of the nibble (40_transfer.md R86). -/
theorem eventsLeft_of_nibble (hx : (byteProgram s)[s.seq.bidx]? = some x) (hu : s.seq.ustep = .setRs) :
    ∃ es, eventsLeft s = nibbleEvents s.cfg x.mode (nib x.value s.seq.nib) ++ es :=
  ⟨_, by rw [eventsLeft, eventsFrom_of_some hx, hu, nibbleLeft_start, List.append_assoc]⟩

/-- Settles O13: from the start of a nibble on, its ten events are the next ten left. -/
theorem nibbleTransferIsTenEvents : Obligations.NibbleTransferIsTenEvents := by
  intro s x hrst hj hq hx hu
  obtain ⟨es, hes⟩ := eventsLeft_of_nibble hx hu
  obtain ⟨t, hrun, htrace⟩ := trace_of_events_left (k := 10) hrst hj hq (by simp [hes, nibbleEvents])
    (by simp [hes, nibbleEvents])
  refine ⟨t, hrun, ?_⟩
  rw [htrace, hes]
  cases x.mode <;> rfl

/-- From the start of a byte on, the next twenty events are those of the byte transfer (40_transfer.md R92). -/
theorem eventsLeft_of_byte (hx : (byteProgram s)[s.seq.bidx]? = some x) (hn : s.seq.nib = .high)
    (hu : s.seq.ustep = .setRs) : ∃ es, eventsLeft s = transferEvents s.cfg x ++ es :=
  ⟨_, by rw [eventsLeft, eventsFrom_of_some hx, hu, hn, nibbleLeft_start]; rfl⟩

/-- Settles O14: from the start of a byte on, its twenty events are the next twenty left; they are counted line by
line. -/
theorem byteTransferIsTwentyEvents : Obligations.ByteTransferIsTwentyEvents := by
  refine ⟨fun s x hrst hj hq hx hn hu => ?_, fun c x h => ⟨length_transferEvents c x, count_wait_transferEvents c x,
    count_rs_transferEvents h x, ?_, count_e_transferEvents h x true, count_e_transferEvents h x false⟩⟩
  · obtain ⟨es, hes⟩ := eventsLeft_of_byte hx hn hu
    obtain ⟨t, hrun, htrace⟩ := trace_of_events_left (k := 20) hrst hj hq (by simp [hes, transferEvents, nibbleEvents])
      (by simp [hes, length_transferEvents])
    refine ⟨t, hrun, ?_⟩
    rw [htrace, hes, List.take_left' (length_transferEvents s.cfg x)]
    rfl
  · rw [sum_data_sets, setsOf_transferEvents h x (by decide), setsOf_transferEvents h x (by decide),
      setsOf_transferEvents h x (by decide), setsOf_transferEvents h x (by decide)]

/-- The end of a job sets INIT_DONE if the job was the reset-time INIT (40_transfer.md R99). -/
theorem initDone_endJob (s : State) :
    (endJob s).initDone = if s.state = .initializing then true else s.initDone := by
  by_cases hs : s.state = .initializing <;> simp [hs]

/-- Settles O16: the pointer of a job's last event does not advance, and the strobe law has E low there. -/
theorem endOfJob : Obligations.EndOfJob := by
  intro s x hrst hj hq hx hb hn hu
  have ha : advance (byteProgram s).length s.seq = none :=
    (advance_eq_none _ _).mpr ⟨hu, hn, Nat.le_of_eq hb.symm⟩
  exact ⟨_, step_of_last hrst hj hq hx ha, rfl, rfl, rfl, initDone_endJob _, fun h => h.low_of_recover hu⟩

/-- Settles O20: at the start of a job its whole program is left, twenty events a byte. -/
theorem jobRunsToItsEnd : Obligations.JobRunsToItsEnd := by
  intro s hrst hj hq hseq hlen
  have hleft : eventsLeft s = programEvents s.cfg (byteProgram s) := eventsLeft_of_start hseq
  have hcount : (eventsLeft s).length = 20 * (byteProgram s).length := by rw [hleft, length_programEvents]
  refine ⟨?_, fun k hk => ?_⟩
  · rw [← hcount] at hq ⊢
    obtain ⟨o, hrun⟩ := runSteps_to_end hrst hj hq (List.ne_nil_of_length_pos (by omega))
    refine ⟨_, hrun, ?_, rfl, rfl, initDone_endJob _, rfl, rfl, rfl, rfl, rfl, rfl, rfl, rfl, rfl, rfl, rfl, rfl⟩
    rw [← hleft, endJob_trace, afterEvents, List.take_length]
  · rw [← hcount] at hk
    obtain ⟨t, hrun, ⟨o, q, rfl⟩, -⟩ := performed_of_lt hrst hj (quietHost_mono hq (by omega)) hk
    exact ⟨_, hrun, rfl, rfl⟩

end Sys2Proof.Machine
end

section
/-! SUPPORT. A request from its presentation in READY to the end of its job (40_transfer.md R95 to R101). -/

namespace Sys2Proof.Machine

variable {s t : State} {i : Instr} {rest : List HostAction}

/-- A request presented in READY is accepted in that very step (10_state.md R39). -/
theorem step_of_request (hrst : s.rst = false) (hs : s.state = .ready)
    (hh : s.host = .cycle { req := some (encode i) } :: rest) : step s = exec i { s with host := rest, req := none } :=
  stepRunsDecodedRequest.1 s (encode i) i rest hrst hs (decode_encode i) hh

/-- In READY a request that answers a next state leaves the block BUSY at the start of its job (40_transfer.md R95). -/
theorem busy_of_exec (hs : s.state = .ready) (he : exec i s = .next t) : t.state = .busy := by
  rcases exec_cases he with ⟨hn, -⟩ | ⟨-, ⟨-, rfl⟩ | ⟨m, v, -, rfl⟩ | ⟨l, -, -, rfl⟩⟩
  · exact absurd hs hn
  all_goals rfl

/-- A request presented in READY, that `exec` takes to `t`, performs the whole byte program of `t` while the host
changes no line, and the block is BUSY from the acceptance until the job's end (40_transfer.md R95, R97, R99). -/
theorem request_runs_to_end (hrst : s.rst = false) (hs : s.state = .ready) (hf : s.fault = false)
    (hh : s.host = .cycle { req := some (encode i) } :: rest)
    (he : exec i { s with host := rest, req := none } = .next t) (hlen : 1 ≤ (byteProgram t).length)
    (hq : quietHost false false (20 * (byteProgram t).length) rest = true) :
    (∃ u, runSteps (20 * (byteProgram t).length + 1) s = .next u ∧
      u.trace = s.trace ++ programEvents s.cfg (byteProgram t) ∧ u.curMode = t.curMode ∧ u.curVal = t.curVal ∧
      u.statusReady = true ∧ u.statusBusy = false ∧ u.initDone = s.initDone) ∧
    ∀ k, 1 ≤ k → k ≤ 20 * (byteProgram t).length →
      ∃ u, runSteps k s = .next u ∧ u.statusReady = false ∧ u.statusBusy = true := by
  have hstep : step s = .next t := (step_of_request hrst hs hh).trans he
  have hbusy : t.state = .busy := busy_of_exec (s := { s with host := rest, req := none }) hs he
  obtain ⟨hseq, -⟩ := exec_starts (s := { s with host := rest, req := none }) hs he
  obtain ⟨-, -, hcfg, -, hinit, hfault, -, -, -, htrace, hrst', hreq, hhost, -⟩ := acceptanceFrame i _ t he
  have hquiet : t.quietFor (20 * (byteProgram t).length) = true := by
    rw [State.quietFor, hfault, hreq, hhost, hf]
    exact hq
  obtain ⟨⟨u, hrun, htr, -, hst, hini, -, -, -, -, hm, hv, -⟩, hinFlight⟩ :=
    jobRunsToItsEnd t (hrst'.trans hrst) (running_of_state (.inr hbusy)) hquiet hseq hlen
  constructor
  · refine ⟨u, (runSteps_succ hstep).trans hrun, ?_, hm, hv, ?_, ?_, ?_⟩
    · rw [htr, htrace, hcfg]
    · simp [State.statusReady, hst, hfault, hf]
    · simp [State.statusBusy, hst, hfault, hf]
    · simp [hini, hbusy, hinit]
  · intro k hk hle
    obtain ⟨j, rfl⟩ := Nat.exists_eq_add_of_le' hk
    obtain ⟨u, hrun, hst, -⟩ := hinFlight j (by omega)
    exact ⟨u, (runSteps_succ hstep).trans hrun, by simp [State.statusReady, hst, hbusy],
      by simp [State.statusBusy, hst, hbusy]⟩

/-- Settles O22: the byte program of an XFER is its one byte transfer. -/
theorem xferRequestEmitsItsByte : Obligations.XferRequestEmitsItsByte := by
  intro s m v rest hrst hs hf hh hq
  have he := exec_xfer_of_ready (s := { s with host := rest, req := none }) m v hs
  exact request_runs_to_end hrst hs hf hh he (by simp [byteProgram]) hq

/-- Settles O23: the byte program of an INIT is the three commands of `initProgram`, six waits each. -/
theorem initRequestEmitsSixtyEvents : Obligations.InitRequestEmitsSixtyEvents := by
  intro s rest hrst hs hf hh hq
  have he := exec_init_of_ready (s := { s with host := rest, req := none }) hs
  obtain ⟨⟨u, hrun, htrace, -, -, hend⟩, hbusy⟩ :=
    request_runs_to_end (i := .init) hrst hs hf hh he (by simp [byteProgram, initProgram]) hq
  refine ⟨⟨u, _, hrun, htrace, rfl, length_programEvents _ _, ?_, hend⟩, hbusy⟩
  exact count_programEvents (count_wait_transferEvents _) initProgram

end Sys2Proof.Machine
end

section
/-! SUPPORT. Splitting a text and laying its lines out: the pieces of a text, the bytes of a row, and the rows of the
formatter (41_layout.md R109 to R113). -/

namespace Sys2Proof.Machine

/-! Splitting -/

/-- Bytes that break no line go into the current piece. -/
theorem splitLoop_append {a : List Byte} (pieces : List (List Byte)) (cur b : List Byte) (ha : lineBreak ∉ a) :
    splitLoop pieces cur (a ++ b) = splitLoop pieces (cur ++ a) b := by
  induction a generalizing cur with
  | nil => simp
  | cons x a ih =>
    obtain ⟨hx, ha⟩ := List.ne_and_not_mem_of_not_mem_cons ha
    rw [List.cons_append, splitLoop, if_neg hx.symm, ih _ ha, List.append_assoc, List.singleton_append]

/-- The pieces found so far stand before those still to be found. -/
theorem splitLoop_pieces (ps qs : List (List Byte)) (cur t : List Byte) :
    splitLoop (ps ++ qs) cur t = ps ++ splitLoop qs cur t := by
  induction t generalizing qs cur with
  | nil => simp [splitLoop]
  | cons b t ih =>
    simp only [splitLoop]
    split
    · rw [List.append_assoc, ih]
    · rw [ih]

theorem split_of_not_mem {a : List Byte} (ha : lineBreak ∉ a) : split a = [a] := by
  rw [split, ← List.append_nil a, splitLoop_append _ _ _ ha]
  simp [splitLoop]

/-- A line break ends a piece and begins the next (41_layout.md R109). -/
theorem split_append_lineBreak {a : List Byte} (b : List Byte) (ha : lineBreak ∉ a) :
    split (a ++ lineBreak :: b) = a :: split b := by
  rw [split, splitLoop_append _ _ _ ha, splitLoop, if_pos rfl]
  exact splitLoop_pieces [a] [] [] b

theorem length_splitLoop (pieces : List (List Byte)) (cur t : List Byte) :
    (splitLoop pieces cur t).length = pieces.length + t.count lineBreak + 1 := by
  induction t generalizing pieces cur with
  | nil => simp [splitLoop]
  | cons b t ih =>
    simp only [splitLoop]
    split
    · next hb => subst hb; rw [ih, List.count_cons_self, List.length_append, List.length_singleton]; omega
    · next hb => rw [ih, List.count_cons_of_ne hb]

/-- The loop puts no line break into a piece. -/
theorem not_mem_of_mem_splitLoop {pieces : List (List Byte)} {cur t : List Byte}
    (hpieces : ∀ p ∈ pieces, lineBreak ∉ p) (hcur : lineBreak ∉ cur) :
    ∀ p ∈ splitLoop pieces cur t, lineBreak ∉ p := by
  induction t generalizing pieces cur with
  | nil => exact List.forall_mem_append.mpr ⟨hpieces, List.forall_mem_singleton.mpr hcur⟩
  | cons b t ih =>
    simp only [splitLoop]
    split
    · exact ih (List.forall_mem_append.mpr ⟨hpieces, List.forall_mem_singleton.mpr hcur⟩) List.not_mem_nil
    · next hb => exact ih hpieces (by simp [hcur, Ne.symm hb])

/-- A line break at the end of a text adds an empty piece (41_layout.md R109). -/
theorem split_append_last_lineBreak (t : List Byte) : split (t ++ [lineBreak]) = split t ++ [[]] := by
  suffices h : ∀ pieces cur, splitLoop pieces cur (t ++ [lineBreak]) = splitLoop pieces cur t ++ [[]] from h [] []
  induction t with
  | nil => exact fun _ _ => rfl
  | cons b t ih =>
    intro pieces cur
    simp only [List.cons_append, splitLoop, ih]
    split <;> rfl

/-! Rows -/

theorem length_row (l : List Byte) (w : Nat) : (row l w).length = w := by
  simp only [row, List.length_append, List.length_take, List.length_replicate]
  omega

/-- Up to column `W` a row holds the bytes of its line (41_layout.md R110). -/
theorem getElem?_row_of_lt {l : List Byte} {w k : Nat} (hw : k < w) (hl : k < l.length) : (row l w)[k]? = l[k]? := by
  rw [row, List.getElem?_append_left (by rw [List.length_take]; omega), List.getElem?_take_of_lt hw]

/-- Past the end of its line a row holds spaces (41_layout.md R110). -/
theorem getElem?_row_of_ge {l : List Byte} {w k : Nat} (hw : k < w) (hl : l.length ≤ k) :
    (row l w)[k]? = some pad := by
  rw [row, List.getElem?_append_right (by rw [List.length_take]; omega), List.length_take, List.getElem?_replicate,
    if_pos (by omega)]

/-- An empty line is laid out as a blank row (41_layout.md R109). -/
theorem row_nil (w : Nat) : row [] w = blankRow w := by
  simp [row, blankRow]

/-- Settles O43: the columns of a row below and from the end of its line on. -/
theorem rowLayout : Obligations.RowLayout := fun l w =>
  ⟨length_row l w, fun _ => getElem?_row_of_lt, fun _ => getElem?_row_of_ge⟩

/-! The formatter -/

theorem formatRow_of_some {p : List (List Byte)} {i : Nat} {l : List Byte} (w : Nat) (hl : p[i]? = some l) :
    formatRow p w i = row l w := by
  simp only [formatRow, hl]

theorem formatRow_of_ge {p : List (List Byte)} {i : Nat} (w : Nat) (hi : p.length ≤ i) :
    formatRow p w i = blankRow w := by
  simp only [formatRow, List.getElem?_eq_none hi]

/-- A missing line and an empty one are the same row (41_layout.md R109). -/
theorem formatRow_append_nil (p : List (List Byte)) (w i : Nat) : formatRow (p ++ [[]]) w i = formatRow p w i := by
  rcases Nat.lt_trichotomy i p.length with hi | rfl | hi
  · rw [formatRow, formatRow, List.getElem?_append_left hi]
  · rw [formatRow_of_some w List.getElem?_concat_length, formatRow_of_ge w (Nat.le_refl _), row_nil]
  · have hpast : (p ++ [[]]).length ≤ i := by rwa [List.length_append, List.length_singleton]
    rw [formatRow_of_ge w hpast, formatRow_of_ge w (Nat.le_of_lt hi)]

/-- Settles O44: row `i` is `formatRow`, which lays line `i` out where there is one and is blank elsewhere. -/
theorem formatterLaw : Obligations.FormatterLaw := by
  intro t w n
  refine ⟨by simp [format], fun r hr => ?_, fun i hi => ?_, fun i hi hk => ?_⟩
  · obtain ⟨i, -, rfl⟩ := List.mem_map.mp hr
    exact length_formatRow _ w i
  · have hline : (split t)[i]? = some _ := List.getElem?_eq_getElem (Nat.lt_of_lt_of_le hi (Nat.min_le_left _ _))
    rw [getElem?_format, if_pos (Nat.lt_of_lt_of_le hi (Nat.min_le_right _ _)), formatRow_of_some w hline, hline,
      Option.map_some]
  · rw [getElem?_format, if_pos hi, formatRow_of_ge w (by omega)]
    rfl

/-- Settles O42: the loop's laws on the pieces, and a missing line is laid out as an empty one. -/
theorem splitLaw : Obligations.SplitLaw := by
  refine ⟨fun _ => split_of_not_mem, fun _ b => split_append_lineBreak b, fun t => ⟨?_, ?_⟩, rfl, fun t => ?_,
    fun p w n => List.map_congr_left fun i _ => formatRow_append_nil p w i⟩
  · rw [split, length_splitLoop, List.length_nil, Nat.zero_add]
  · exact not_mem_of_mem_splitLoop (fun _ h => absurd h List.not_mem_nil) List.not_mem_nil
  · rw [split_append_last_lineBreak, List.getLast?_concat]

end Sys2Proof.Machine
end

section
/-! SUPPORT. RENDER: the raster that its acceptance stores, the byte program of its job by byte index, and that from its
presentation to the end of its job the trace gets the layout of its text (41_layout.md R114 to R123). -/

namespace Sys2Proof.Machine

variable {s : State}

/-! Acceptance -/

/-- In READY a RENDER that reads a byte not written since reset is the model fault (41_layout.md R114). -/
theorem exec_render_of_unwritten {a : Nat} (hs : s.state = .ready) (ha : a < s.textLen)
    (hread : Mem.read s.textBuf a = none) : exec .render s = .fault .unwrittenText := by
  have hnone : Mem.readRange s.textBuf 0 s.textLen = none :=
    (Mem.readRange_eq_none _ _ _).mpr ⟨a, ha, by rwa [Nat.zero_add]⟩
  rw [exec, execRender, accept_ready _ hs, hnone]

/-- A text written throughout is read as the list of its bytes (41_layout.md R107). -/
theorem readRange_of_text {m : Mem} {k : Nat} {l : List Byte} (hlen : l.length = k)
    (hread : ∀ a < k, Mem.read m a = l[a]?) : Mem.readRange m 0 k = some l :=
  (Mem.readRange_eq_some _ _ _ _).mpr ⟨hlen, fun a ha => by rw [Nat.zero_add, hread a ha]⟩

/-- The raster holds no byte from `N * W` on (20_memory.md R46). -/
theorem read_storeRows_of_ge (p : List (List Byte)) {w n a : Nat} (ha : n * w ≤ a) :
    Mem.read (storeRows (format p w n)) a = none := by
  have hnot := isSome_read_storeRows p w n a
  rwa [decide_eq_false (Nat.not_lt.mpr ha), Option.isSome_eq_false_iff, Option.isNone_iff_eq_none] at hnot

/-- Settles O10: the raster stored is read back row by row, and an unwritten byte stops the reading of the text. -/
theorem renderRasterizes : Obligations.RenderRasterizes := by
  refine ⟨fun s l hs hlen hread => ?_, fun s a => exec_render_of_unwritten⟩
  refine ⟨_, exec_render_of_readRange hs (readRange_of_text hlen hread), rfl, fun r hr j hj => ?_,
    fun a => read_storeRows_of_ge (split l)⟩
  have hread := (read_storeRows (split l) _ _ r j hr hj).trans
    (List.getElem?_eq_getElem (by rwa [length_formatRow] : j < (formatRow (split l) s.cfg.w r).length))
  exact ⟨_, (read_storeRows_eq_format (split l) hr hj).symm.trans hread, hread⟩

/-! The byte program by byte index -/

theorem byteProgram_render (hj : s.job = .render) : byteProgram s = renderProgram s := by
  rw [byteProgram, hj]

/-- Byte `k` of a line's transfers, from 1 on, is its character `k - 1` as Data (41_layout.md R117). -/
theorem getElem?_lineProgram_succ (addr a : Nat) {k : Nat} (hk : k < s.cfg.w) :
    (lineProgram s addr a)[k + 1]? = some ⟨.data, s.rasterByte (a + k)⟩ := by
  simp [lineProgram, hk]

/-- Byte `i * (W + 1)` of a RENDER is the address of line `i` as a Command (41_layout.md R117). -/
theorem getElem?_renderProgram_address {i a : Nat} (ha : s.cfg.lineAddr[i]? = some a) :
    (renderProgram s)[i * (s.cfg.w + 1)]? = some ⟨.command, lineByte a⟩ := by
  have hi : i < s.cfg.n := (List.getElem?_eq_some_iff.mp ha).1
  have hfirst := getElem?_renderProgram s hi (Nat.succ_pos s.cfg.w)
  rwa [Nat.add_zero, List.getD_eq_getElem?_getD, ha] at hfirst

/-- Byte `i * (W + 1) + k + 1` of a RENDER is character `k` of line `i` as Data (41_layout.md R117). -/
theorem getElem?_renderProgram_character {i k : Nat} (hi : i < s.cfg.n) (hk : k < s.cfg.w) :
    (renderProgram s)[i * (s.cfg.w + 1) + (k + 1)]? = some ⟨.data, s.rasterByte (i * s.cfg.w + k)⟩ := by
  rw [getElem?_renderProgram s hi (Nat.succ_lt_succ hk), getElem?_lineProgram_succ _ _ hk]

/-- A Command of a RENDER stands at the start of a line (41_layout.md R123). -/
theorem line_start_of_command {b : Nat} {x : Transfer} (hx : (renderProgram s)[b]? = some x) (hm : x.mode = .command) :
    ∃ i < s.cfg.n, b = i * (s.cfg.w + 1) := by
  have hb : b < s.cfg.n * (s.cfg.w + 1) := length_renderProgram s ▸ (List.getElem?_eq_some_iff.mp hx).1
  have hi : b / (s.cfg.w + 1) < s.cfg.n := Nat.div_lt_of_lt_mul (Nat.mul_comm _ _ ▸ hb)
  have hsplit : b / (s.cfg.w + 1) * (s.cfg.w + 1) + b % (s.cfg.w + 1) = b := Nat.div_add_mod' _ _
  refine ⟨_, hi, ?_⟩
  cases hk : b % (s.cfg.w + 1) with
  | zero => rw [hk] at hsplit; exact hsplit.symm
  | succ k =>
    have hlt : k + 1 < s.cfg.w + 1 := hk ▸ Nat.mod_lt b (Nat.succ_pos _)
    have hdata := getElem?_renderProgram_character hi (Nat.lt_of_succ_lt_succ hlt)
    rw [← hk, hsplit, hx] at hdata
    cases hdata
    cases hm

/-- Settles O18: each line's transfers stand `W + 1` bytes after those of the line before. -/
theorem renderByteAddressing : Obligations.RenderByteAddressing := by
  intro s hj
  rw [byteProgram_render hj]
  refine ⟨length_renderProgram s, fun i hi =>
    ⟨fun a _ => getElem?_renderProgram_address, fun k b hk hkw hb => ?_⟩⟩
  obtain ⟨j, rfl⟩ := Nat.exists_eq_add_of_le' hk
  have hread : Mem.read s.raster (i * s.cfg.w + j) = some b := hb
  rw [getElem?_renderProgram_character hi hkw, State.rasterByte, hread, Option.getD_some]

/-- Settles O19: byte 0 is the address of line 0 and is the first performed; every other byte of a line is Data. -/
theorem onlyLineStartsAreCommands : Obligations.OnlyLineStartsAreCommands := by
  intro s hj
  have hp := byteProgram_render hj
  have haddress : ∀ i a, s.cfg.lineAddr[i]? = some a →
      (byteProgram s)[i * (s.cfg.w + 1)]? = some ⟨.command, lineByte a⟩ := fun i a ha =>
    hp ▸ getElem?_renderProgram_address ha
  have hfirst : ∀ a, s.cfg.lineAddr[0]? = some a → (byteProgram s)[0]? = some ⟨.command, lineByte a⟩ :=
    fun a ha => by simpa using haddress 0 a ha
  refine ⟨fun a _ => hfirst a, fun a _ ha hrst hrun hq hseq => ?_, fun i a _ => haddress i a, fun k x hx =>
    line_start_of_command (hp ▸ hx)⟩
  exact byteTransferIsTwentyEvents.1 s _ hrst hrun hq (by rw [hseq]; exact hfirst a ha) (by rw [hseq]) (by rw [hseq])

/-! From presentation to the end of the job -/

/-- The byte transfers that show the lines `p`: each line's address as a Command, then its laid-out row as Data
(41_layout.md R116, R117). -/
def layoutProgram (c : Cfg) (p : List (List Byte)) : List Transfer :=
  (c.lineAddr.zip (format p c.w c.n)).flatMap fun q => ⟨.command, lineByte q.1⟩ :: q.2.map fun b => ⟨.data, b⟩

/-- The line addresses with their rows, by line number. -/
theorem zip_lineAddr_format (c : Cfg) (p : List (List Byte)) :
    c.lineAddr.zip (format p c.w c.n) = (List.range c.n).map fun i => (c.lineAddr.getD i 0, formatRow p c.w i) := by
  refine List.ext_getElem (by simp [format, Cfg.n]) fun i hi _ => ?_
  have hi' : i < c.lineAddr.length := by rw [List.length_zip] at hi; omega
  simp [format, List.getElem?_eq_getElem hi']

/-- With the layout of `p` in the raster, line `i`'s transfers are its address and its laid-out row. -/
theorem lineProgram_of_raster {p : List (List Byte)} (hraster : s.raster = storeRows (format p s.cfg.w s.cfg.n))
    (addr : Nat) {i : Nat} (hi : i < s.cfg.n) :
    lineProgram s addr (i * s.cfg.w) =
      ⟨.command, lineByte addr⟩ :: (formatRow p s.cfg.w i).map fun b => ⟨.data, b⟩ := by
  refine congrArg _ (List.ext_getElem (by simp) fun j hj _ => ?_)
  have hjw : j < s.cfg.w := by simpa using hj
  have hread := read_storeRows p s.cfg.w s.cfg.n i j hi hjw
  rw [← hraster, List.getElem?_eq_getElem (by simpa using hjw)] at hread
  simp [State.rasterByte, hread]

/-- With the layout of `p` in the raster, a RENDER transmits the layout of `p` (41_layout.md R117). -/
theorem renderProgram_of_raster {p : List (List Byte)} (hraster : s.raster = storeRows (format p s.cfg.w s.cfg.n)) :
    renderProgram s = layoutProgram s.cfg p := by
  rw [renderProgram, layoutProgram, zip_lineAddr_format, List.flatMap_map, List.flatMap_def, List.flatMap_def]
  exact congrArg List.flatten
    (List.map_congr_left fun i hi => lineProgram_of_raster hraster _ (List.mem_range.mp hi))

/-- The state right after the acceptance of a RENDER with the text `l`, the host having `rest` left to do. -/
def rendering (l : List Byte) (rest : List HostAction) (s : State) : State :=
  startJob .busy .render (rasterize l { s with host := rest, req := none })

/-- A RENDER presented in READY with the text `l` written is accepted (41_layout.md R114, R118). -/
theorem step_of_render {l : List Byte} {rest : List HostAction} (hrst : s.rst = false) (hs : s.state = .ready)
    (hh : s.host = .cycle { req := some 0x3000#16 } :: rest) (hl : Mem.readRange s.textBuf 0 s.textLen = some l) :
    step s = .next (rendering l rest s) :=
  (step_of_request (i := .render) hrst hs hh).trans (exec_render_of_readRange hs hl)

theorem byteProgram_rendering (l : List Byte) (rest : List HostAction) (s : State) :
    byteProgram (rendering l rest s) = layoutProgram s.cfg (split l) :=
  renderProgram_of_raster rfl

theorem length_byteProgram_rendering (l : List Byte) (rest : List HostAction) (s : State) :
    (byteProgram (rendering l rest s)).length = s.cfg.n * (s.cfg.w + 1) :=
  length_renderProgram (rendering l rest s)

/-- A RENDER presented in READY with the text `l` written performs the layout of `l` while the host changes no line,
and then the block is READY, or in FAULT if a fault is pending (41_layout.md R118; 40_transfer.md R99). -/
theorem render_request_runs_to_end {l : List Byte} {rest : List HostAction} (hrst : s.rst = false)
    (hs : s.state = .ready) (hh : s.host = .cycle { req := some 0x3000#16 } :: rest) (hn : 1 ≤ s.cfg.n)
    (hl : Mem.readRange s.textBuf 0 s.textLen = some l)
    (hq : quietHost s.fault false (20 * (s.cfg.n * (s.cfg.w + 1))) rest = true) :
    ∃ u, runSteps (1 + 20 * (s.cfg.n * (s.cfg.w + 1))) s = .next u ∧
      u.trace = s.trace ++ programEvents s.cfg (layoutProgram s.cfg (split l)) ∧
      u.state = (if s.fault then .fault else .ready) ∧ u.initDone = s.initDone := by
  have hlen := length_byteProgram_rendering l rest s
  have hpos : 1 ≤ (byteProgram (rendering l rest s)).length := hlen ▸ Nat.mul_pos hn (Nat.succ_pos _)
  obtain ⟨⟨u, hrun, htrace, -, hstate, hinit, -⟩, -⟩ :=
    jobRunsToItsEnd (rendering l rest s) hrst (running_of_state (.inr rfl)) (hlen ▸ hq) rfl hpos
  rw [hlen] at hrun
  rw [byteProgram_rendering] at htrace
  exact ⟨u, by rw [Nat.add_comm, runSteps_succ (step_of_render hrst hs hh hl), hrun], htrace, hstate, hinit⟩

/-- Settles O24: the job performs the layout of the text, and no fault is pending at its end. -/
theorem renderRequestTransmitsLayout : Obligations.RenderRequestTransmitsLayout := by
  intro s l rest hrst hs hf hh hq hlen hread hn _
  obtain ⟨u, hrun, htrace, hstate, hinit⟩ :=
    render_request_runs_to_end hrst hs hh hn (readRange_of_text hlen hread) (hf ▸ hq)
  have hready : u.state = .ready := by rw [hstate, hf]; rfl
  exact ⟨u, hrun, htrace, by simp [State.statusReady, hready], by simp [State.statusBusy, hready], hinit⟩

/-- Settles O25: the events are those of the layout, which the text and the configuration determine. -/
theorem renderTwiceSameEvents : Obligations.RenderTwiceSameEvents := by
  intro s₁ s₂ rest₁ rest₂ hrst₁ hrst₂ hs₁ hs₂ hcfg hn hh₁ hh₂ hq₁ hq₂ htextLen htext
  obtain ⟨l, hl₁⟩ := readRange_of_written fun a ha => (htext a ha).1
  have hl₂ : Mem.readRange s₂.textBuf 0 s₂.textLen = some l := by
    obtain ⟨hlen, hread⟩ := (Mem.readRange_eq_some _ _ _ _).mp hl₁
    refine readRange_of_text (hlen.trans htextLen) fun a ha => ?_
    rw [← htextLen] at ha
    rw [← (htext a ha).2, ← hread a ha, Nat.zero_add]
  obtain ⟨u₁, hrun₁, htrace₁, -⟩ := render_request_runs_to_end hrst₁ hs₁ hh₁ hn hl₁ hq₁
  obtain ⟨u₂, hrun₂, htrace₂, -⟩ := render_request_runs_to_end hrst₂ hs₂ hh₂ (hcfg ▸ hn) hl₂ (hcfg ▸ hq₂)
  rw [← hcfg] at hrun₂ htrace₂
  exact ⟨_, u₁, u₂, hrun₁, htrace₁, hrun₂, htrace₂⟩

end Sys2Proof.Machine
end

section
/-! SUPPORT. Faults: what a second fault does, that nothing but reset returns from a fault, the acceptance of an illegal
word, and TEXT_RANGE alone and beside the other write of its host cycle (60_exceptions.md R130 to R140). -/

namespace Sys2Proof.Machine

variable {s t u : State} {rest : List HostAction}

/-! Fault entry by the block's state -/

/-- In CONFIG and READY a fault stops the block at once (60_exceptions.md R136). -/
theorem raiseFault_of_config_or_ready (c : ErrCode) (hs : s.state = .config ∨ s.state = .ready) :
    raiseFault c s =
      { s with fault := true, errCode := if s.fault then s.errCode else c, state := .fault, job := .none } := by
  rw [raiseFault_eq, if_pos hs, if_pos hs]

/-- In the other states a fault changes the two fault registers only (60_exceptions.md R136, R137). -/
theorem raiseFault_of_job_or_fault (c : ErrCode) (hs : s.state = .initializing ∨ s.state = .busy ∨ s.state = .fault) :
    raiseFault c s = { s with fault := true, errCode := if s.fault then s.errCode else c } := by
  have hn : ¬ (s.state = .config ∨ s.state = .ready) := by rcases hs with hs | hs | hs <;> simp [hs]
  rw [raiseFault_eq, if_neg hn, if_neg hn]

/-- A fault after a fault changes nothing: the first code is kept (60_exceptions.md R136). -/
theorem raiseFault_raiseFault (c d : ErrCode) (s : State) : raiseFault c (raiseFault d s) = raiseFault d s := by
  rw [raiseFault_eq d]
  by_cases hs : s.state = .config ∨ s.state = .ready
  · simp [raiseFault_eq c, if_pos hs]
  · simp [raiseFault_eq c, if_neg hs]

/-! No return from a fault -/

/-- From `s` to `t` nothing returns from a fault: a fault recorded in `s` is the one recorded in `t`, and where `s` is in
FAULT the block is still there and has performed nothing (60_exceptions.md R139, R140). -/
structure NoReturn (s t : State) : Prop where
  recorded : s.fault = true → t.fault = true ∧ t.errCode = s.errCode
  stuck : s.state = .fault →
    t.state = .fault ∧ t.trace = s.trace ∧ t.out = s.out ∧ t.job = s.job ∧ t.raster = s.raster

theorem NoReturn.refl (s : State) : NoReturn s s := ⟨fun hf => ⟨hf, rfl⟩, fun hs => ⟨hs, rfl, rfl, rfl, rfl⟩⟩

theorem NoReturn.trans (h : NoReturn s t) (k : NoReturn t u) : NoReturn s u where
  recorded hf := by
    obtain ⟨hft, hct⟩ := h.recorded hf
    exact (k.recorded hft).imp_right fun hcu => hcu.trans hct
  stuck hs := by
    obtain ⟨hst, htr, hout, hjob, hras⟩ := h.stuck hs
    obtain ⟨hsu, htr', hout', hjob', hras'⟩ := k.stuck hst
    exact ⟨hsu, htr'.trans htr, hout'.trans hout, hjob'.trans hjob, hras'.trans hras⟩

/-- From another state than FAULT it is enough that the fault registers are kept. -/
theorem noReturn_of_not_fault (hs : s.state ≠ .fault) (hf : t.fault = s.fault) (hc : t.errCode = s.errCode) :
    NoReturn s t :=
  ⟨fun h => ⟨hf.trans h, hc⟩, fun h => absurd h hs⟩

theorem noReturn_raiseFault (c : ErrCode) (s : State) : NoReturn s (raiseFault c s) where
  recorded hf := by
    rw [raiseFault_eq]
    exact ⟨rfl, if_pos hf⟩
  stuck hs := by
    rw [raiseFault_of_job_or_fault c (.inr (.inr hs))]
    exact ⟨hs, rfl, rfl, rfl, rfl⟩

theorem noReturn_textWrite (a : Nat) (b : Byte) (s : State) : NoReturn s (textWrite a b s) := by
  rcases textWrite_cases a b s with ⟨-, e⟩ | ⟨-, e⟩ <;> rw [e]
  · exact ⟨fun hf => ⟨hf, rfl⟩, fun hs => ⟨hs, rfl, rfl, rfl, rfl⟩⟩
  · exact noReturn_raiseFault _ s

theorem noReturn_lengthWrite (n : Nat) (s : State) : NoReturn s (lengthWrite n s) := by
  rcases lengthWrite_cases n s with ⟨-, e⟩ | ⟨-, e⟩ <;> rw [e]
  · exact ⟨fun hf => ⟨hf, rfl⟩, fun hs => ⟨hs, rfl, rfl, rfl, rfl⟩⟩
  · exact noReturn_raiseFault _ s

/-- A request is accepted in READY only, and its job starts with the fault registers as they are (40_transfer.md R95). -/
theorem noReturn_exec {i : Instr} (hs : s.state = .ready) (he : exec i s = .next t) : NoReturn s t := by
  obtain ⟨-, -, -, -, -, hf, hc, -⟩ := acceptanceFrame i s t he
  exact noReturn_of_not_fault (by simp [hs]) hf hc

/-- A job step leaves the fault registers alone (40_transfer.md R98, R99). -/
theorem moveOn_perform_faultRegisters (len : Nat) (o : LineOp) (s : State) :
    (moveOn len (perform o s)).fault = s.fault ∧ (moveOn len (perform o s)).errCode = s.errCode := by
  rcases moveOn_cases len (perform o s) with ⟨q, -, e⟩ | ⟨-, e⟩ <;> rw [e, perform_eq] <;> exact ⟨rfl, rfl⟩

/-- In FAULT the sequencer has no step, and its steps in the other states clear no fault (60_exceptions.md R137, R140). -/
theorem noReturn_sequencerStep (hq : sequencerStep s = .next t) : NoReturn s t := by
  rcases sequencerStep_cases hq with ⟨hs, rfl⟩ | ⟨hs, x, -, rfl⟩ | ⟨-, rfl⟩
  · rcases configStep_cases s with ⟨-, e⟩ | ⟨-, -, e⟩ | ⟨-, -, e⟩ <;> rw [e]
    · exact noReturn_raiseFault _ s
    · exact noReturn_raiseFault _ s
    · exact noReturn_of_not_fault (by simp [hs]) rfl rfl
  · obtain ⟨hf, hc⟩ := moveOn_perform_faultRegisters (byteProgram s).length (lineOp x s.seq.nib s.seq.ustep) s
    exact noReturn_of_not_fault (by rcases hs with hs | hs <;> simp [hs]) hf hc
  · exact .refl _

theorem kept_noReturn (s : State) : Kept (NoReturn s) where
  hostMoves _ _ _ h := ⟨h.recorded, h.stuck⟩
  textWrite a b u _ h := h.trans (noReturn_textWrite a b u)
  lengthWrite n u _ h := h.trans (noReturn_lengthWrite n u)
  exec _ _ _ _ hs he h := h.trans (noReturn_exec hs he)
  illegal u _ _ h := h.trans (noReturn_raiseFault _ u)
  sequencer _ _ _ hq h := h.trans (noReturn_sequencerStep hq)

/-- With `rst` released no step but its assertion returns from a fault (60_exceptions.md R139). -/
theorem noReturn_step (hrst : s.rst = false) (hnoreset : ∀ rest, s.host ≠ .assertReset :: rest)
    (h : step s = .next t) : NoReturn s t :=
  (kept_noReturn s).step_released hrst hnoreset h (.refl s)

/-- Settles O40: no transition but the assertion of rst returns from a fault, and that one resets every register. -/
theorem onlyResetClearsFault : Obligations.OnlyResetClearsFault := by
  refine ⟨fun s t hrst hf hnoreset h => ?_, fun s rest hrst hh => ?_⟩
  · have hkept := noReturn_step hrst hnoreset h
    obtain ⟨hft, hct⟩ := hkept.recorded hf
    exact ⟨hft, hct, fun hs => (hkept.stuck hs).1⟩
  · refine ⟨assertReset { s with host := rest }, by simp only [step, turn, hh, hostTurn], ?_⟩
    rw [← resetRegisters_assertReset (s := { s with host := rest }) hrst]
    exact ⟨rfl, rfl, rfl⟩

/-- Settles O41: a quiet turn is the sequencer's, which has no step in FAULT, and text writes work in every state. -/
theorem faultStateIsStuck : Obligations.FaultStateIsStuck := by
  refine ⟨fun s t hrst hs hnoreset h => ?_, fun s hrst hs hq => ?_, fun s a b rest hrst hs ha hh => ?_⟩
  · obtain ⟨hst, htr, hout, hjob, hras⟩ := (noReturn_step hrst hnoreset h).stuck hs
    exact ⟨htr, hout, hjob, by simp [State.statusReady, hst], hras⟩
  · rw [step_of_quiet (k := 0) hrst (by simp [hs]) hq]
    simp only [sequencerStep, hs]
  · obtain ⟨t, hstep, -, -, hinRange, -⟩ := textByteWrite s a b rest hrst (.inr (by simp [hs])) hh
    obtain ⟨-, hread⟩ := hinRange ha
    exact ⟨t, hstep, (hread a).trans (if_pos rfl)⟩

/-! The acceptance of an illegal word -/

/-- Accepting a word that decodes to no request consumes it and stops the block (60_exceptions.md R130). -/
theorem acceptRequest_of_illegal {w : Word} (hs : s.state = .ready) (hw : s.req = some w) (hd : decode w = none) :
    acceptRequest s = .next { s with
      req := none, fault := true, errCode := if s.fault then s.errCode else .illegalReq, state := .fault,
      job := .none } := by
  simp only [acceptRequest, hw, execWord, hd, execIllegal]
  rw [accept_ready (s := { s with req := none }) _ hs,
    raiseFault_of_config_or_ready (s := { s with req := none }) _ (.inr hs)]

/-- A word held in READY is accepted in a turn in which the host changes no line; a wait goes on over it. -/
theorem step_of_held {w : Word} (hrst : s.rst = false) (hs : s.state = .ready) (hw : s.req = some w)
    (hh : s.host = .pass :: rest ∨
      s.host = rest ∧ (rest = [] ∨ ∃ l, rest = .awaitAccept :: l ∨ rest = .waitReady :: l)) :
    step s = acceptRequest { s with host := rest } := by
  have hshake := handshake_of_ready hs hw
  have hquiet : ∀ l, quietTurn { s with host := l } = acceptRequest { s with host := l } := fun l => by
    rw [quietTurn, if_neg (by simp [hrst]), if_pos (handshake_of_ready (s := { s with host := l }) hs hw)]
  rcases hh with hh | ⟨rfl, hh⟩
  · simp only [step, turn, hh, hostTurn]
    exact hquiet rest
  · have hturn : step s = quietTurn s := by
      rcases hh with hh | ⟨l, hh | hh⟩
      · simp only [step, turn, hh]
      · simp [step, turn, hh, hostTurn, hw]
      · simp [step, turn, hh, hostTurn, hshake]
    exact hturn.trans (hquiet s.host)

/-- Settles O5: in each of the forms the turn comes down to `acceptRequest`. -/
theorem illegalRequestStopsBlock : Obligations.IllegalRequestStopsBlock := by
  rintro s w rest hrst hs hd (hh | ⟨hw, hh⟩)
  · rw [step_of_presenting hrst hh,
      if_pos (handshake_of_ready (s := { s with host := rest, req := some w }) hs rfl)]
    exact acceptRequest_of_illegal (s := { s with host := rest, req := some w }) hs rfl hd
  · rw [step_of_held hrst hs hw hh]
    exact acceptRequest_of_illegal (s := { s with host := rest }) hs hw hd

/-! The writes of a host cycle -/

variable {c : HostCycle}

/-- A text byte write in range, if any (20_memory.md R47). -/
theorem applyText_of_lt (h : ∀ a b, c.text = some (a, b) → a < s.cfg.textMax) :
    applyText c s = { s with textBuf := (c.text.map fun p => Mem.write s.textBuf p.1 p.2).getD s.textBuf } := by
  unfold applyText
  cases hc : c.text with
  | none => rfl
  | some p =>
    have ha : p.1 < s.cfg.textMax := h p.1 p.2 hc
    simp only [textPort_of_le (Nat.le_of_lt ha), textWrite_of_lt p.2 ha, Option.map_some, Option.getD_some]

/-- A length write in range, if any (20_memory.md R48). -/
theorem applyLength_of_le (h : ∀ n, c.len = some n → n ≤ s.cfg.textMax) :
    applyLength c s = { s with textLen := c.len.getD s.textLen } := by
  unfold applyLength
  cases hc : c.len with
  | none => rfl
  | some n => simp only [textPort_of_le (h n hc), lengthWrite_of_le (h n hc), Option.getD_some]

/-- A text byte write out of range, at an address that the port carries, is TEXT_RANGE (60_exceptions.md R131). -/
theorem applyText_of_ge {a : Nat} {b : Byte} (hc : c.text = some (a, b)) (ha : s.cfg.textMax ≤ a)
    (hport : a < 2 ^ bitWidth s.cfg.textMax) : applyText c s = raiseFault .textRange s := by
  simp only [applyText, hc, textPort_of_lt hport, textWrite_of_ge b ha]

/-- A length write out of range, of a number that the port carries, is TEXT_RANGE (60_exceptions.md R131). -/
theorem applyLength_of_gt {n : Nat} (hc : c.len = some n) (hn : s.cfg.textMax < n)
    (hport : n < 2 ^ bitWidth s.cfg.textMax) : applyLength c s = raiseFault .textRange s := by
  simp only [applyLength, hc, textPort_of_lt hport, lengthWrite_of_gt hn]

/-- Settles O36: the cycle's one write is TEXT_RANGE, and fault entry depends on the block's state. -/
theorem textRangeFault : Obligations.TextRangeFault := by
  intro s c rest hrst hreq hc hh
  have hstep : step s = .next (raiseFault .textRange { s with host := rest }) := by
    rcases hc with ⟨a, b, rfl, ha, hport⟩ | ⟨n, rfl, hn, hport⟩ <;> rw [step_of_writing rfl hrst hreq hh]
    · rw [applyWrites, applyText_of_ge (s := { s with host := rest }) rfl ha hport]
      rfl
    · exact congrArg _ (applyLength_of_gt (s := { s with host := rest }) (c := { len := some n }) rfl hn hport)
  refine ⟨fun hs => ?_, fun hs => ?_⟩ <;> rw [hstep]
  · rw [raiseFault_of_config_or_ready (s := { s with host := rest }) _ hs]
  · rw [raiseFault_of_job_or_fault (s := { s with host := rest }) _ hs]

/-! The order within one host cycle -/

/-- A text byte write out of range is TEXT_RANGE; beside it a length write in range is applied, and one out of range is
no new fault (60_exceptions.md R131, R135). -/
theorem applyWrites_of_text_ge {a : Nat} {b : Byte} (hc : c.text = some (a, b)) (ha : s.cfg.textMax ≤ a)
    (hport : a < 2 ^ bitWidth s.cfg.textMax) :
    ∃ n, applyWrites c s = raiseFault .textRange { s with textLen := n } ∧ (c.len = none → n = s.textLen) ∧
      ∀ m, c.len = some m → m ≤ s.cfg.textMax → n = m := by
  have hcfg : (raiseFault .textRange s).cfg = s.cfg := (portFrame_raiseFault _ s).cfg
  rw [applyWrites, applyText_of_ge hc ha hport]
  rcases applyLength_cases c (raiseFault .textRange s) with ⟨hl, e⟩ | ⟨n, hl, -, e⟩ | ⟨n, hl, hgt, e⟩ <;> rw [e]
  · exact ⟨s.textLen, rfl, fun _ => rfl, by simp [hl]⟩
  · refine ⟨textPort s.cfg n, by simp only [raiseFault_eq], by simp [hl], fun m hm hle => ?_⟩
    obtain rfl : n = m := Option.some.inj (hl.symm.trans hm)
    exact textPort_of_le hle
  · refine ⟨s.textLen, raiseFault_raiseFault _ _ s, fun _ => rfl, fun m hm hle => ?_⟩
    obtain rfl : n = m := Option.some.inj (hl.symm.trans hm)
    rw [hcfg, textPort_of_le hle] at hgt
    exact absurd hle (Nat.not_le.mpr hgt)

/-- A length write out of range is TEXT_RANGE; beside it a text byte write in range is applied, and one out of range is
that fault already (60_exceptions.md R131, R135). -/
theorem applyWrites_of_len_gt {n : Nat} (hc : c.len = some n) (hn : s.cfg.textMax < n)
    (hport : n < 2 ^ bitWidth s.cfg.textMax) :
    ∃ m, applyWrites c s = raiseFault .textRange { s with textBuf := m } ∧ (c.text = none → m = s.textBuf) ∧
      ∀ a b, c.text = some (a, b) → a < s.cfg.textMax → m = Mem.write s.textBuf a b := by
  have hcfg : (applyText c s).cfg = s.cfg := (portFrame_applyText c s).cfg
  rw [applyWrites, applyLength_of_gt hc (by rwa [hcfg]) (by rwa [hcfg])]
  rcases applyText_cases c s with ⟨ht, e⟩ | ⟨a, b, ht, -, e⟩ | ⟨a, b, ht, hge, e⟩ <;> rw [e]
  · exact ⟨s.textBuf, rfl, fun _ => rfl, by simp [ht]⟩
  · refine ⟨_, rfl, by simp [ht], fun k d hk hlt => ?_⟩
    obtain ⟨rfl, rfl⟩ : a = k ∧ b = d := by simpa [ht] using hk
    rw [textPort_of_le (Nat.le_of_lt hlt)]
  · refine ⟨s.textBuf, raiseFault_raiseFault _ _ s, fun _ => rfl, fun k d hk hlt => ?_⟩
    obtain ⟨rfl, rfl⟩ : a = k ∧ b = d := by simpa [ht] using hk
    rw [textPort_of_le (Nat.le_of_lt hlt)] at hge
    exact absurd hlt (Nat.not_lt.mpr hge)

/-- A word newly presented replaces the one held (log entry 5). -/
theorem present_eq (c : HostCycle) (s : State) : present c s = { s with req := c.req.or s.req } := by
  unfold present
  cases c.req <;> rfl

/-- A host cycle with `rst` released does its writes first, and then there is a handshake or none (60_exceptions.md
R135). -/
theorem hostCycle_of_writes (hrst : s.rst = false) (hu : applyWrites c s = u) :
    hostCycle c s =
      if handshake { u with req := c.req.or s.req } then acceptRequest { u with req := c.req.or s.req }
      else .next { u with req := c.req.or s.req } := by
  obtain ⟨-, hreq, -⟩ := applyWrites_frame c s
  subst hu
  rw [hostCycle, if_neg (by simp [hrst])]
  simp only [present_eq, hreq]

/-- A host cycle in READY whose writes are in range accepts the word presented or held on the state after them. -/
theorem hostCycle_of_in_range {w : Word} (hrst : s.rst = false) (hs : s.state = .ready)
    (htext : ∀ a b, c.text = some (a, b) → a < s.cfg.textMax) (hlen : ∀ n, c.len = some n → n ≤ s.cfg.textMax)
    (hw : c.req.or s.req = some w) :
    hostCycle c s = acceptRequest { s with
      textBuf := (c.text.map fun p => Mem.write s.textBuf p.1 p.2).getD s.textBuf, textLen := c.len.getD s.textLen,
      req := some w } := by
  have hwrites : applyWrites c s = { s with
      textBuf := (c.text.map fun p => Mem.write s.textBuf p.1 p.2).getD s.textBuf,
      textLen := c.len.getD s.textLen } := by
    rw [applyWrites, applyText_of_lt htext]
    exact applyLength_of_le hlen
  rw [hostCycle_of_writes hrst hwrites, hw]
  exact if_pos (by simp [handshake, State.statusReady, hs])

/-- A host cycle whose writes raise TEXT_RANGE in READY accepts no word, and the word stays on the port (log entry 6). -/
theorem hostCycle_of_textRange (hrst : s.rst = false) (hu : applyWrites c s = raiseFault .textRange u)
    (hs : u.state = .ready) :
    hostCycle c s = .next { u with
      req := c.req.or s.req, fault := true, errCode := if u.fault then u.errCode else .textRange, state := .fault,
      job := .none } := by
  rw [raiseFault_of_config_or_ready _ (.inr hs)] at hu
  rw [hostCycle_of_writes hrst hu]
  exact if_neg (Bool.eq_false_iff.mp (handshake_of_not_ready (by simp)))

/-- Settles O37: the writes come first, and only where they leave the block in READY is there a handshake. -/
theorem sameCycleOrder : Obligations.SameCycleOrder := by
  refine ⟨fun s u x y r w rest hrst hs hx hy hw hh hu => ?_, fun s a b x r rest hrst hs ha hport hh => ?_,
    fun s n x r rest hrst hs hn hport hh => ?_⟩ <;> rw [step_of_cycle hh]
  · rw [hostCycle_of_in_range (s := { s with host := rest }) hrst hs hx hy hw]
    subst hu
    exact ⟨fun i hd => acceptRequest_of_decode rfl hd, fun hd => acceptRequest_of_illegal (w := w) hs rfl hd⟩
  · obtain ⟨n, hwrites, hnone, hsome⟩ := applyWrites_of_text_ge (s := { s with host := rest })
      (c := { text := some (a, b), len := x, req := r }) rfl ha hport
    exact ⟨_, hostCycle_of_textRange hrst hwrites hs, rfl, hnone, hsome⟩
  · obtain ⟨m, hwrites, hnone, hsome⟩ := applyWrites_of_len_gt (s := { s with host := rest })
      (c := { text := x, len := some n, req := r }) rfl hn hport
    refine ⟨_, hostCycle_of_textRange hrst hwrites hs, rfl, hnone, fun a b hc ha k => ?_⟩
    rw [← Mem.read_write]
    exact congrArg (Mem.read · k) (hsome a b hc ha)

end Sys2Proof.Machine
end

section
/-! SUPPORT. The configuration step and the boot: when a configuration is well formed, the three outcomes of the step,
and the run from a good reset to READY (70_reset_and_hazards.md R156, R157). -/

namespace Sys2Proof.Machine

variable {s : State} {k : Nat}

/-! The pin set -/

theorem insertPin_perm (p : PinId) (l : List PinId) : (insertPin p l).Perm (p :: l) := by
  induction l with
  | nil => exact .refl _
  | cons q l ih =>
    rw [insertPin]
    split
    · exact .refl _
    · exact (ih.cons q).trans (.swap p q l)

theorem foldr_insertPin_perm (l : List PinId) : (l.foldr insertPin []).Perm l := by
  induction l with
  | nil => exact .refl _
  | cons p l ih => exact (insertPin_perm p _).trans (ih.cons p)

/-- The set of a `Configure` event lists the six pins, each as often as the configuration does (10_state.md R14). -/
theorem pinSet_perm (c : Cfg) : (pinSet c).Perm c.pins := foldr_insertPin_perm c.pins

/-! The configuration step -/

/-- The four clauses of 00_scope.md R6. -/
theorem wellFormed_iff {lim : Limits} {c : Cfg} :
    c.wellFormed lim = true ↔
      c.pins.Nodup ∧ (1 ≤ c.w ∧ c.w ≤ lim.wMax) ∧ (1 ≤ c.n ∧ c.n ≤ lim.nMax) ∧ ∀ a ∈ c.lineAddr, a ≤ 0xFF := by
  simp only [Cfg.wellFormed, Cfg.pinsDistinct, Cfg.widthOk, Cfg.linesOk, Cfg.addressesOk, Bool.and_eq_true,
    List.all_eq_true, decide_eq_true_eq, and_assoc]

/-- A configuration that breaks R6 is CFG_INVALID, whatever the platform answers (60_exceptions.md R129). -/
theorem configStep_of_broken (hs : s.state = .config) (hc : ¬ s.cfg.wellFormed s.limits = true) :
    configStep s =
      { s with
        fault := true, errCode := if s.fault then s.errCode else .cfgInvalid, state := .fault, job := .none } := by
  rw [configStep, if_pos (by simpa [configBroken] using hc), raiseFault_of_config_or_ready _ (.inl hs)]

/-- A well-formed configuration with a rejected pin is CFG_REJECT (60_exceptions.md R128). -/
theorem configStep_of_rejected (hs : s.state = .config) (hc : s.cfg.wellFormed s.limits = true)
    (hp : ∃ p ∈ s.cfg.pins, p ∈ s.platRejects) :
    configStep s =
      { s with
        fault := true, errCode := if s.fault then s.errCode else .cfgReject, state := .fault, job := .none } := by
  rcases configStep_cases s with ⟨hbroken, -⟩ | ⟨-, -, e⟩ | ⟨-, hacc, -⟩
  · simp [hc] at hbroken
  · rw [e, raiseFault_of_config_or_ready _ (.inl hs)]
  · obtain ⟨p, hmem, hrej⟩ := hp
    exact absurd hrej (hacc p hmem)

/-- In CONFIG a quiet host's turn is the configuration step (70_reset_and_hazards.md R156). -/
theorem step_of_config (hrst : s.rst = false) (hs : s.state = .config) (hq : s.quietFor (k + 1) = true) :
    step s = .next (configStep { s with host := hostAfter 1 s.host }) := by
  rw [step_of_quiet hrst (by simp [hs]) hq]
  simp only [sequencerStep, hs]

/-- Settles O26: R6 is `Cfg.wellFormed`, and each outcome of the configuration step is a fault in CONFIG or the start of
the INIT job after one `Configure`. -/
theorem configurationStep : Obligations.ConfigurationStep := by
  intro s hrst hq hs
  rw [← wellFormed_iff, step_of_config (k := 0) hrst hs hq]
  refine ⟨fun hbroken => ?_, fun hc => ⟨fun hrej => ?_, fun hacc => ⟨pinSet s.cfg, pinSet_perm s.cfg, ?_⟩⟩⟩
  · rw [configStep_of_broken (s := { s with host := hostAfter 1 s.host }) hs hbroken]
  · rw [configStep_of_rejected (s := { s with host := hostAfter 1 s.host }) hs hc hrej]
  · rw [configStep_of_accepted (s := { s with host := hostAfter 1 s.host }) hc hacc]
    rfl

/-! The boot -/

/-- The state right after the `Configure` event: the reset-time INIT at its start (70_reset_and_hazards.md R156). -/
def initializing (s : State) : State :=
  startJob .initializing .init (emitConfigure { s with host := hostAfter 1 s.host })

theorem byteProgram_initializing (s : State) : byteProgram (initializing s) = initProgram := rfl

theorem quietFor_initializing (hq : s.quietFor (1 + k) = true) : (initializing s).quietFor k = true := by
  rw [State.quietFor, quietHost_add, Bool.and_eq_true] at hq
  exact hq.2

theorem step_of_good_config (hrst : s.rst = false) (hs : s.state = .config) (hq : s.quietFor (k + 1) = true)
    (hc : s.cfg.wellFormed s.limits = true) (hp : ∀ p ∈ s.cfg.pins, p ∉ s.platRejects) :
    step s = .next (initializing s) := by
  rw [step_of_config hrst hs hq, configStep_of_accepted (s := { s with host := hostAfter 1 s.host }) hc hp]
  rfl

/-- Settles O27: the configuration step starts the INIT job, and that job runs its sixty events to READY. -/
theorem bootSequence : Obligations.BootSequence := by
  intro s hrst hq hs hf hc hp
  have hstep : step s = .next (initializing s) := step_of_good_config hrst hs hq hc hp
  obtain ⟨⟨t, hrun, htrace, -, hstate, hinit, -⟩, hinFlight⟩ :=
    jobRunsToItsEnd (initializing s) hrst (running_of_state (.inl rfl)) (quietFor_initializing (k := 60) hq) rfl
      (by rw [byteProgram_initializing]; decide)
  refine ⟨⟨t, (runSteps_succ hstep).trans hrun, ?_, ?_, hinit⟩, fun k hk => ?_⟩
  · rw [htrace, byteProgram_initializing]
    simp [initializing, initProgram]
  · rw [hstate]
    exact if_neg (by simp [initializing, hf])
  · cases k with
    | zero => exact ⟨s, rfl, by simp [State.statusReady, hs]⟩
    | succ k =>
      obtain ⟨u, hu, hus, -⟩ := hinFlight k hk
      exact ⟨u, (runSteps_succ hstep).trans hu, by simp [State.statusReady, hus, initializing]⟩

end Sys2Proof.Machine
end

section
/-! SUPPORT. A job in flight against the host and time: its byte program is fixed, it always has a step, and its `Wait`
events bound its duration from below (70_reset_and_hazards.md R170, R171, R173). -/

namespace Sys2Proof.Machine

variable {s : State}

/-- A job step that leaves the job in flight moves the pointer only, and so keeps the byte program. -/
theorem byteProgram_moveOn_perform (x : Transfer)
    (hj : (moveOn (byteProgram s).length (perform (lineOp x s.seq.nib s.seq.ustep) s)).running = true) :
    byteProgram (moveOn (byteProgram s).length (perform (lineOp x s.seq.nib s.seq.ustep) s)) = byteProgram s := by
  rcases moveOn_perform_cases s x with ⟨q, -, e⟩ | ⟨-, -, -, e⟩ <;> rw [e] at hj ⊢
  · exact byteProgram_perform _ s
  · simp at hj

/-- Settles O39: reset leaves no job in flight, no request is accepted during one, and neither the host's writes nor a
job step touch what the byte program is read from. -/
theorem byteProgramFixedDuringJob : Obligations.ByteProgramFixedDuringJob := by
  intro s t hj hjt h
  cases step_transition h with
  | assertReset rest hrst _ =>
    obtain ⟨-, hidle⟩ := idle_of_reset (resetRegisters_assertReset (s := { s with host := rest }) hrst)
    exact absurd (hjt.symm.trans hidle) (by decide)
  | releaseReset c rest _ _ =>
    obtain ⟨-, hidle⟩ := idle_of_reset (resetRegisters_releaseReset c { s with host := rest })
    exact absurd (hjt.symm.trans hidle) (by decide)
  | hostMoves rest r => exact byteProgram_congr rfl rfl rfl rfl rfl
  | writes c rest r _ => exact (sameJob_applyWrites c { s with host := rest }).program hj
  | accepts c rest i t _ hs _ => exact absurd hs (accepting_not_ready c rest hj)
  | illegal c rest _ hs => exact absurd hs (accepting_not_ready c rest hj)
  | sequencer rest t _ hq =>
    rcases sequencerStep_cases hq with ⟨hs, -⟩ | ⟨-, x, -, rfl⟩ | ⟨hs, -⟩
    · exact absurd (hj.symm.trans (not_running_of_state (.inl hs))) (by decide)
    · exact byteProgram_moveOn_perform x hjt
    · exact absurd (hj.symm.trans (not_running_of_state (.inr hs))) (by decide)

/-- Settles O48: the invariant has the pointer name a byte, so the job has a step, and the step performs one event. -/
theorem runningSequencerHasAStep : Obligations.RunningSequencerHasAStep := by
  intro s h hrst hj hq
  have hx : (byteProgram s)[s.seq.bidx]? = some _ := List.getElem?_eq_getElem (h.pointer hj)
  exact ⟨_, _, step_of_running (k := 0) hrst hj hq hx,
    (portFrame_moveOn _ _).trace.trans (congrArg State.trace (perform_eq _ _))⟩

/-! Durations -/

theorem minDuration_nibbleEvents (c : Cfg) (m : Mode) (n : Nibble) :
    minDuration c (nibbleEvents c m n) = 3 * c.tDelay := by
  simp [minDuration, waits, nibbleEvents]

/-- Six `Wait`s a byte transfer (40_transfer.md R105). -/
theorem minDuration_programEvents (c : Cfg) (p : List Transfer) :
    minDuration c (programEvents c p) = 6 * p.length * c.tDelay := by
  rw [minDuration, waits, count_programEvents (count_wait_transferEvents c)]

/-- Settles O45: six waits a byte transfer, and the lengths of the three programs are known. -/
theorem durationLowerBounds : Obligations.DurationLowerBounds := by
  refine ⟨minDuration_nibbleEvents, fun c x => ?_, fun s => ⟨fun hj => ?_, fun hj => ?_, fun hj => ?_⟩⟩
  · rw [minDuration, waits, count_wait_transferEvents]
  · rw [minDuration_programEvents, byteProgram, hj]
    rfl
  · rw [minDuration_programEvents, byteProgram, hj]
    rfl
  · rw [minDuration_programEvents, byteProgram_render hj, length_renderProgram, ← Nat.mul_assoc 6]

end Sys2Proof.Machine
end

section
/-! SUPPORT. The reset line: its assertion, the turns while it is asserted, its release, and a release action while it
is released (70_reset_and_hazards.md R154, R155, R165). -/

namespace Sys2Proof.Machine

variable {s : State} {c : Cfg} {rest : List HostAction}

/-! Asserted -/

/-- While rst is asserted a quiet turn changes nothing (70_reset_and_hazards.md R154). -/
theorem quietTurn_of_asserted (hrst : s.rst = true) : quietTurn s = .next s := if_pos hrst

/-- While rst is asserted a host cycle moves the request port only (10_state.md R40). -/
theorem hostCycle_of_asserted (cyc : HostCycle) (hrst : s.rst = true) :
    hostCycle cyc s = .next { s with req := cyc.req.or s.req } := by
  rw [hostCycle, if_pos hrst, present_eq]

/-- While rst is asserted, every host action but its release moves the host's script and the request port only. -/
theorem hostTurn_of_asserted (a : HostAction) (rest : List HostAction) (hrst : s.rst = true)
    (ha : ∀ c, a ≠ .releaseReset c) : ∃ h r, hostTurn a rest s = .next { s with host := h, req := r } := by
  cases a with
  | assertReset => exact ⟨rest, s.req, by simp [hostTurn, assertReset, hrst]⟩
  | releaseReset c => exact absurd rfl (ha c)
  | cycle c => exact ⟨rest, _, hostCycle_of_asserted c (s := { s with host := rest }) hrst⟩
  | withdraw => exact ⟨rest, none, rfl⟩
  | awaitAccept =>
    simp only [hostTurn]
    split
    · exact ⟨rest, s.req, rfl⟩
    · exact ⟨s.host, s.req, quietTurn_of_asserted hrst⟩
  | waitReady =>
    simp only [hostTurn]
    split
    · exact ⟨rest, s.req, rfl⟩
    · exact ⟨s.host, s.req, quietTurn_of_asserted hrst⟩
  | pass => exact ⟨rest, s.req, quietTurn_of_asserted (s := { s with host := rest }) hrst⟩

/-- Settles O28: the assertion is `assertReset`, and while rst is asserted neither the sequencer nor the text port
acts. -/
theorem resetAssertion : Obligations.ResetAssertion := by
  refine ⟨fun s rest hrst hh => ?_, fun s hrst hnorelease => ?_⟩
  · simp only [step, turn, hh, hostTurn, assertReset, hrst, Bool.false_eq_true, if_false]
    by_cases htr : s.trace = [] <;> simp [htr, resetRegisters, Latches.zero, Seq.start]
  · unfold step turn
    split
    · exact ⟨s.host, s.req, quietTurn_of_asserted hrst⟩
    · rename_i a rest hh
      exact hostTurn_of_asserted a rest hrst fun c ha => hnorelease c rest (ha ▸ hh)

/-! Released -/

/-- Releasing an asserted rst is `releaseReset` (70_reset_and_hazards.md R155). -/
theorem step_of_release (hrst : s.rst = true) (hh : s.host = .releaseReset c :: rest) :
    step s = .next (releaseReset c { s with host := rest }) := by
  simp only [step, turn, hh, hostTurn, hrst, if_true]

/-- With rst released the action is a host cycle that drives no port: a request held in READY is accepted, and nothing
else happens (log entries 5, 14, 22). -/
theorem step_of_unseen_release (hrst : s.rst = false) (hh : s.host = .releaseReset c :: rest) :
    step s =
      if handshake s then acceptRequest { s with host := rest } else .next { s with host := rest } := by
  have hturn : step s = hostCycle {} { s with host := rest } := by
    simp only [step, turn, hh, hostTurn, hrst, Bool.false_eq_true, if_false]
  rw [hturn, hostCycle_of_writes (s := { s with host := rest }) (c := {}) hrst rfl]
  rfl

/-- Settles O29: a release of rst is `releaseReset`; with rst released only the handshake decides what its turn does. -/
theorem releaseSamplesConfiguration : Obligations.ReleaseSamplesConfiguration := by
  refine ⟨fun s c rest hrst hh => ⟨_, step_of_release hrst hh, rfl, rfl, rfl, rfl, rfl⟩,
    fun s c rest hrst hidle hh => ?_, fun s c w rest hrst hw hs hh => ?_⟩
  · have hnone : handshake s = false := by
      rcases hidle with hn | hs
      · rw [handshake, hn]
        rfl
      · exact handshake_of_not_ready hs
    rw [step_of_unseen_release hrst hh, hnone]
    rfl
  · rw [step_of_unseen_release hrst hh, if_pos (handshake_of_ready hs hw)]
    exact ⟨fun i hd => acceptRequest_of_decode (s := { s with host := rest }) hw hd,
      fun hd => acceptRequest_of_illegal (s := { s with host := rest }) hs hw hd⟩

end Sys2Proof.Machine
end
